-- ==== Sys2Proof/Word.lean ====
section
/-! DEFINITION. The bit-vector types of the bus responder (00_scope.md R5, R7). -/

namespace Sys2Proof

/-- A 32-bit bus word: address, write data, read data, memory word (R5). -/
abbrev Word := BitVec 32

/-- A byte, 8 bits (20_memory.md R42). -/
abbrev Byte := BitVec 8

/-- A byte-enable: one bit per byte lane of a word, bit 3 the most significant byte
(R5, 20_memory.md R43). -/
abbrev LaneSel := BitVec 4

/-- A phase index, the tick count modulo the table length 4 (30_encoding.md R65). -/
abbrev PhaseIndex := BitVec 2

end Sys2Proof
end

