-- ==== Sys2Proof/Syntax.lean ====
section
/-! DEFINITION. The operation set that has encodings (00_scope.md R2): one constructor per row of
spec/opcode_table.json. A row's ignored bits are operands, so that no bit of an encoding is dropped
(DESIGN CHOICE, log entry 3, safe). -/

namespace Sys2Proof

/-- The three bit formats (30_encoding.md R60). -/
inductive Format where
  /-- the request lines, 71 bits (R61) -/
  | req
  /-- the responder's dispatch word, 5 bits (R63) -/
  | step
  /-- the phase index, 2 bits (R65) -/
  | phase
  deriving DecidableEq, Repr

/-- The bus commands, the responder micro-operations and the clock phases. -/
inductive Instr where
  /-- `NOP`, first row: `cyc = 0`, the other lines anything (R61) -/
  | nopNoCyc (stb we : Bool) (sel : LaneSel) (adr wdata : Word)
  /-- `NOP`, second row: `cyc = 1`, `stb = 0` (R61) -/
  | nopNoStb (we : Bool) (sel : LaneSel) (adr wdata : Word)
  /-- `READ`: a read of `adr`; `sel` and `wdata` are ignored (R61) -/
  | read (sel : LaneSel) (adr wdata : Word)
  /-- `WRITE`: a write of the lanes `sel` of `wdata` at `adr` (R61) -/
  | write (sel : LaneSel) (adr wdata : Word)
  /-- `IDLE_HOLD`, first row: `st = 00`, `cyc = 0` (R63) -/
  | idleHoldNoCyc (stb we : Bool)
  /-- `IDLE_HOLD`, second row: `st = 00`, `cyc = 1`, `stb = 0` (R63) -/
  | idleHoldNoStb (we : Bool)
  /-- `ACCEPT_READ`: `st = 00`, lines `110` (R63) -/
  | acceptRead
  /-- `ACCEPT_WRITE`: `st = 00`, lines `111` (R63) -/
  | acceptWrite
  /-- `RETIRE_READ`: `st = 01`, the lines not sampled (R63) -/
  | retireRead (cyc stb we : Bool)
  /-- `RETIRE_WRITE`: `st = 10`, the lines not sampled (R63) -/
  | retireWrite (cyc stb we : Bool)
  /-- `RESERVED_ST3`: `st = 11`, which names no state (R63, 42_bus_responder.md R125) -/
  | reservedSt3 (cyc stb we : Bool)
  /-- `PH0`, index 0 (R65) -/
  | ph0
  /-- `PH1`, index 1 (R65) -/
  | ph1
  /-- `PH2`, index 2 (R65) -/
  | ph2
  /-- `PH3`, index 3 (R65) -/
  | ph3
  deriving DecidableEq, Repr

/-- The format an operation is encoded in. -/
def Instr.format : Instr → Format
  | .nopNoCyc .. => .req
  | .nopNoStb .. => .req
  | .read .. => .req
  | .write .. => .req
  | .idleHoldNoCyc .. => .step
  | .idleHoldNoStb .. => .step
  | .acceptRead => .step
  | .acceptWrite => .step
  | .retireRead .. => .step
  | .retireWrite .. => .step
  | .reservedSt3 .. => .step
  | .ph0 => .phase
  | .ph1 => .phase
  | .ph2 => .phase
  | .ph3 => .phase

/-- Bits of a format (R60). -/
def Format.width : Format → Nat
  | .req => 71
  | .step => 5
  | .phase => 2

/-- Whole bytes a format's bits are packed in. DESIGN CHOICE: log entry 1, safe. -/
def Format.bytes : Format → Nat
  | .req => 9
  | .step => 1
  | .phase => 1

end Sys2Proof
end

