-- ==== Sys2Proof/Decode.lean ====
section
/-! DEFINITION. Decoding of the three bit formats and its inverse (30_encoding.md R60 to R65; the
packing is the spec's own, decision D19). Bits are packed in bytes, the first byte bits 7 to 0
(DESIGN CHOICE, log entry 1, safe: no port shows a packing). -/

namespace Sys2Proof

/-- Why a byte string is no operation of a format. -/
inductive DecodeError where
  /-- the string has not the format's length (R60: each format has one fixed length). Raised by `decode`; safe. -/
  | wrongLength
  /-- a bit above the format's width is set. Raised by `decode`; safe. -/
  | paddingSet
  deriving DecidableEq, Repr

/-- The command that the 71 request lines spell (R61). -/
def decodeReq (w : BitVec 71) : Instr :=
  let stb := w.getLsbD 69
  let we := w.getLsbD 68
  let sel : LaneSel := w.extractLsb' 64 4
  let adr : Word := w.extractLsb' 32 32
  let wdata : Word := w.extractLsb' 0 32
  match w.getLsbD 70, stb, we with
  | false, stb, we => .nopNoCyc stb we sel adr wdata
  | true, false, we => .nopNoStb we sel adr wdata
  | true, true, false => .read sel adr wdata
  | true, true, true => .write sel adr wdata

/-- The micro-operation that the dispatch word selects (R63). -/
def decodeStep (w : BitVec 5) : Instr :=
  match w.getLsbD 4, w.getLsbD 3, w.getLsbD 2, w.getLsbD 1, w.getLsbD 0 with
  | false, false, false, stb, we => .idleHoldNoCyc stb we
  | false, false, true, false, we => .idleHoldNoStb we
  | false, false, true, true, false => .acceptRead
  | false, false, true, true, true => .acceptWrite
  | false, true, cyc, stb, we => .retireRead cyc stb we
  | true, false, cyc, stb, we => .retireWrite cyc stb we
  | true, true, cyc, stb, we => .reservedSt3 cyc stb we

/-- The phase of a phase index (R65). -/
def decodePhase (idx : PhaseIndex) : Instr :=
  match idx.getLsbD 1, idx.getLsbD 0 with
  | false, false => .ph0
  | false, true => .ph1
  | true, false => .ph2
  | true, true => .ph3

/-- The decoder of a format on a number below two to the format's width. -/
def decodeBits (f : Format) (w : Nat) : Instr :=
  match f with
  | .req => decodeReq (BitVec.ofNat 71 w)
  | .step => decodeStep (BitVec.ofNat 5 w)
  | .phase => decodePhase (BitVec.ofNat 2 w)

/-- The number a byte string writes, the first byte least significant. -/
def bytesToNat : List Byte → Nat
  | [] => 0
  | b :: bs => b.toNat + 256 * bytesToNat bs

/-- The first `n` bytes of a number, the least significant first. -/
def natToBytes : Nat → Nat → List Byte
  | 0, _ => []
  | n + 1, w => BitVec.ofNat 8 w :: natToBytes n (w / 256)

/-- Decode any byte string in a format, rejecting by name. -/
def decode (f : Format) (bs : List Byte) : Except DecodeError Instr :=
  if bs.length ≠ f.bytes then .error .wrongLength
  else if 2 ^ f.width ≤ bytesToNat bs then .error .paddingSet
  else .ok (decodeBits f (bytesToNat bs))

/-- The 71 bits of a request (R61): `cyc`, `stb`, `we`, `sel`, `adr`, `wdata` from bit 70 down. -/
def reqWord (cyc stb we : Bool) (sel : LaneSel) (adr wdata : Word) : BitVec 71 :=
  BitVec.cast (by decide) (BitVec.ofBool cyc ++ BitVec.ofBool stb ++ BitVec.ofBool we ++ sel ++ adr ++ wdata)

/-- The 5 bits of a dispatch word (R63): two state bits, `cyc`, `stb`, `we` from bit 4 down. -/
def dispatchWord (st : BitVec 2) (cyc stb we : Bool) : BitVec 5 :=
  BitVec.cast (by decide) (st ++ BitVec.ofBool cyc ++ BitVec.ofBool stb ++ BitVec.ofBool we)

/-- The number an operation's encoding writes in its format (rows of R61, R63, R65). -/
def encodeBits : Instr → Nat
  | .nopNoCyc stb we sel adr wdata => (reqWord false stb we sel adr wdata).toNat
  | .nopNoStb we sel adr wdata => (reqWord true false we sel adr wdata).toNat
  | .read sel adr wdata => (reqWord true true false sel adr wdata).toNat
  | .write sel adr wdata => (reqWord true true true sel adr wdata).toNat
  | .idleHoldNoCyc stb we => (dispatchWord 0b00#2 false stb we).toNat
  | .idleHoldNoStb we => (dispatchWord 0b00#2 true false we).toNat
  | .acceptRead => (dispatchWord 0b00#2 true true false).toNat
  | .acceptWrite => (dispatchWord 0b00#2 true true true).toNat
  | .retireRead cyc stb we => (dispatchWord 0b01#2 cyc stb we).toNat
  | .retireWrite cyc stb we => (dispatchWord 0b10#2 cyc stb we).toNat
  | .reservedSt3 cyc stb we => (dispatchWord 0b11#2 cyc stb we).toNat
  | .ph0 => 0
  | .ph1 => 1
  | .ph2 => 2
  | .ph3 => 3

/-- The bytes of an operation's encoding. -/
def encode (i : Instr) : List Byte :=
  natToBytes i.format.bytes (encodeBits i)

/-- Which format an opcode-table word of `nbits` bits is in. The exact widths 71, 5 and 2 name their
format, and so do 72 bits. Eight bits fit STEP and PHASE; the spec gives no mark that tells them
apart, so a number below 4 is read as PHASE and any other as STEP.
DESIGN CHOICE: log entry 2, safe: only the host's two doors use it. -/
def tableFormat (nbits w : Nat) : Option Format :=
  if nbits = 71 ∨ nbits = 72 then some .req
  else if nbits = 5 then some .step
  else if nbits = 2 then some .phase
  else if nbits = 8 then (if w < 4 then some .phase else some .step)
  else none

/-- The operation read from an opcode-table word, bit 0 the least significant of the first byte. -/
def decodeTableWord (nbits w : Nat) : Option Instr :=
  match tableFormat nbits w with
  | none => none
  | some f =>
    if 256 ^ f.bytes ≤ w then none
    else
      match decode f (natToBytes f.bytes w) with
      | .ok i => some i
      | .error _ => none

/-- One row of the opcode table: a format's word is in the row when its masked bits are the match
(spec/opcode_table.json; R61, R63, R65). -/
structure TableRow where
  mnemonic : String
  format : Format
  mask : Nat
  bits : Nat
  deriving DecidableEq, Repr

/-- The rows of format REQ (R61). -/
def reqRows : List TableRow :=
  [ ⟨"NOP", .req, 0x400000000000000000, 0x000000000000000000⟩,
    ⟨"NOP", .req, 0x600000000000000000, 0x400000000000000000⟩,
    ⟨"READ", .req, 0x700000000000000000, 0x600000000000000000⟩,
    ⟨"WRITE", .req, 0x700000000000000000, 0x700000000000000000⟩ ]

/-- The rows of format STEP (R63). -/
def stepRows : List TableRow :=
  [ ⟨"IDLE_HOLD", .step, 0b11100, 0b00000⟩,
    ⟨"IDLE_HOLD", .step, 0b11110, 0b00100⟩,
    ⟨"ACCEPT_READ", .step, 0b11111, 0b00110⟩,
    ⟨"ACCEPT_WRITE", .step, 0b11111, 0b00111⟩,
    ⟨"RETIRE_READ", .step, 0b11000, 0b01000⟩,
    ⟨"RETIRE_WRITE", .step, 0b11000, 0b10000⟩,
    ⟨"RESERVED_ST3", .step, 0b11000, 0b11000⟩ ]

/-- The rows of format PHASE (R65). -/
def phaseRows : List TableRow :=
  [ ⟨"PH0", .phase, 0b11, 0b00⟩, ⟨"PH1", .phase, 0b11, 0b01⟩,
    ⟨"PH2", .phase, 0b11, 0b10⟩, ⟨"PH3", .phase, 0b11, 0b11⟩ ]

/-- The whole opcode table. -/
def tableRows : List TableRow := reqRows ++ stepRows ++ phaseRows

/-- A row holds a word of its format. -/
def TableRow.holds (r : TableRow) (w : Nat) : Bool :=
  w &&& r.mask == r.bits

/-- The table's name of an operation. -/
def Instr.mnemonic : Instr → String
  | .nopNoCyc .. => "NOP"
  | .nopNoStb .. => "NOP"
  | .read .. => "READ"
  | .write .. => "WRITE"
  | .idleHoldNoCyc .. => "IDLE_HOLD"
  | .idleHoldNoStb .. => "IDLE_HOLD"
  | .acceptRead => "ACCEPT_READ"
  | .acceptWrite => "ACCEPT_WRITE"
  | .retireRead .. => "RETIRE_READ"
  | .retireWrite .. => "RETIRE_WRITE"
  | .reservedSt3 .. => "RESERVED_ST3"
  | .ph0 => "PH0"
  | .ph1 => "PH1"
  | .ph2 => "PH2"
  | .ph3 => "PH3"

end Sys2Proof
end

