-- ==== Sys2Proof/Config.lean ====
section
/-! DEFINITION. What is fixed for a run (the parameters of 00_scope.md R6), the records of the
lines on the ports (10_state.md R27, R28), and the free values. -/

namespace Sys2Proof

/-- The lines the device under test drives and this hardware samples after every `evaluate`
(10_state.md R27). -/
structure Lines where
  /-- bus cycle-valid -/
  cyc : Bool
  /-- strobe -/
  stb : Bool
  /-- write-enable -/
  we : Bool
  /-- byte-enable -/
  sel : LaneSel
  /-- address -/
  adr : Word
  /-- write data -/
  wdata : Word
  /-- completion requested, polled every tick -/
  done : Bool
  deriving DecidableEq, Repr, Inhabited

/-- The lines this hardware drives onto the device under test (10_state.md R28). -/
structure Driven where
  clk1x : Bool
  clk2x : Bool
  /-- the reset line, 1 = asserted -/
  reset : Bool
  rdata : Word
  ack : Bool
  deriving DecidableEq, Repr, Inhabited

/-- One entry of the phase table: the two clock bits of a tick (41_clock_phase_generator.md R103). -/
structure ClockBits where
  clk1x : Bool
  clk2x : Bool
  deriving DecidableEq, Repr, Inhabited

/-- The phase table, four entries (R5, 41_clock_phase_generator.md R103). -/
structure PhaseTable where
  entry0 : ClockBits
  entry1 : ClockBits
  entry2 : ClockBits
  entry3 : ClockBits
  deriving DecidableEq, Repr, Inhabited

/-- Treatment of an address whose low two bits are not zero (R6, 20_memory.md R46). -/
inductive AddrMode where
  /-- the low two bits are ignored -/
  | mask
  /-- such an access is given no meaning -/
  | refuse
  deriving DecidableEq, Repr, Inhabited

/-- The parameters of a run (R6, 10_state.md R26). Constant for the run: no operation writes one.
`image` is the text of the memory image, absent when the file is missing (30_encoding.md R67).
`traceEnabled` is the host's choice of 60_exceptions.md R178. -/
structure Params where
  resetCycle : Nat
  threadRunCycle : Nat
  runCycles : Nat
  hbCycles : Nat
  image : Option (List Char)
  imageBase : Word
  defaultValue : Word
  littleEndian : Bool
  logStores : Bool
  phaseTable : PhaseTable
  boundaryIndex : Fin 4
  rdataInit : Word
  addrMode : AddrMode
  traceEnabled : Bool
  deriving DecidableEq, Repr, Inhabited

/-- The values construction leaves unspecified: the capture registers (10_state.md R32), the clock
bits before the first tick (R22), and the model's record of the sampled lines. -/
structure Draws where
  capAdr : Word
  capDat : Word
  capSel : LaneSel
  clk1x : Bool
  clk2x : Bool
  sampled : Lines
  deriving DecidableEq, Repr, Inhabited

namespace Config

/-- The table length (R5, R6 `TABLE_LEN`). -/
abbrev tableLen : Nat := 4

/-- The spec's default phase table (30_encoding.md R65, decision D4).
DESIGN CHOICE (the spec's own): log entry 11, unsafe. -/
def defaultPhaseTable : PhaseTable :=
  { entry0 := ⟨true, true⟩, entry1 := ⟨true, false⟩, entry2 := ⟨false, true⟩, entry3 := ⟨false, false⟩ }

/-- `RESET_CYCLE` of the reset state: OPEN in R6, a free value. DESIGN CHOICE: log entry 10, safe. -/
opaque resetCycle : Nat
/-- `THREAD_RUN_CYCLE` of the reset state: OPEN in R6, a free value. DESIGN CHOICE: log entry 10, safe. -/
opaque threadRunCycle : Nat
/-- `RUN_CYCLES` of the reset state: OPEN in R6, a free value. DESIGN CHOICE: log entry 10, safe. -/
opaque runCycles : Nat
/-- `HB_CYCLES` of the reset state: OPEN in R6, a free value. DESIGN CHOICE: log entry 10, safe. -/
opaque hbCycles : Nat
/-- `IMAGE_BASE` of the reset state: OPEN in R6, a free value. DESIGN CHOICE: log entry 10, safe. -/
opaque imageBase : Word
/-- `DEFAULT_VALUE` of the reset state: OPEN in R6, a free value. DESIGN CHOICE: log entry 10, safe. -/
opaque defaultValue : Word
/-- `LITTLE_ENDIAN` of the reset state: OPEN in R6, a free value. DESIGN CHOICE: log entry 10, safe. -/
opaque littleEndian : Bool
/-- `LOG_STORES` of the reset state: OPEN in R6, a free value. DESIGN CHOICE: log entry 10, safe. -/
opaque logStores : Bool
/-- `RDATA_INIT` of the reset state, "a draw" (R6, 10_state.md R32, decision D9).
DESIGN CHOICE: log entry 9, safe. -/
opaque rdataInit : Word
/-- The values 10_state.md R32 leaves unspecified or unobserved at construction.
DESIGN CHOICE: log entry 9, safe. -/
opaque draws : Draws

/-- The device under test's `evaluate` (43_simulation_driver.md R142): from its hidden state and
the five driven lines to its next hidden state and the seven lines it drives. A free function:
nothing constrains it. DESIGN CHOICE: log entry 7, safe. -/
opaque evaluate : Nat → Driven → Nat × Lines

/-- The parameters of `State.reset`: free where R6 says OPEN, the spec's defaults elsewhere, no
image. DESIGN CHOICE: log entries 10, 11 and 12. -/
def params : Params :=
  { resetCycle := resetCycle
    threadRunCycle := threadRunCycle
    runCycles := runCycles
    hbCycles := hbCycles
    image := none
    imageBase := imageBase
    defaultValue := defaultValue
    littleEndian := littleEndian
    logStores := logStores
    phaseTable := defaultPhaseTable
    boundaryIndex := 0
    rdataInit := rdataInit
    addrMode := .mask
    traceEnabled := true }

end Config

end Sys2Proof
end

