-- ==== Sys2Proof/Machine/State.lean ====
section
/-! DEFINITION. The machine's state (10_state.md): four parts, one per component of the hardware,
the configuration, the diagnostic outputs, and the model's record of the device under test. -/

namespace Sys2Proof.Machine

/-- The state of the responder (10_state.md R15). Three constructors, so that the unused encoding
`11` cannot be written down (30_encoding.md R62). -/
inductive RspState where
  | idle
  | readPending
  | writePending
  deriving DecidableEq, Repr, Inhabited

/-- A diagnostic event (10_state.md R30). No operation reads one. -/
inductive Event where
  /-- `StoreLog(key, old, new)`, 40_memory_model_ops.md R83 -/
  | storeLog (key old new : Word)
  /-- `Heartbeat(cycle)`, 60_exceptions.md R179 -/
  | heartbeat (cycle : Nat)
  /-- `Trace(tick)`, 60_exceptions.md R178 -/
  | trace (tick : Nat)
  deriving DecidableEq, Repr

/-- Stored bytes by byte address; the form is `Memory.wf` of Machine/Operands.lean. -/
abbrev Memory := List Host.Cell

/-- The MemoryModel component (10_state.md R11 to R13). `S.map` is the pair of `mapped`, its domain,
and `cells`, its contents by byte (DESIGN CHOICE, log entry 13, safe). -/
structure MemoryModel where
  /-- the bytes that differ from the default fill, by rising address -/
  cells : Memory
  /-- the mapped keys, rising: the domain of `S.map` (R11) -/
  mapped : List Nat
  /-- `S.defaultValue` (R12) -/
  defaultValue : Word
  /-- `S.littleEndian`, read by no rule (R13) -/
  littleEndian : Bool
  /-- `S.logStores` (R13) -/
  logStores : Bool
  deriving DecidableEq, Repr

/-- The BusResponder component (10_state.md R15, R16, R19). -/
structure Responder where
  /-- `S.st` -/
  st : RspState
  /-- `S.cap_adr` -/
  capAdr : Word
  /-- `S.cap_dat` -/
  capDat : Word
  /-- `S.cap_sel` -/
  capSel : LaneSel
  /-- `S.ack` -/
  ack : Bool
  /-- `S.rdata` -/
  rdata : Word
  deriving DecidableEq, Repr

/-- The ClockPhaseGenerator component (10_state.md R21, R22). -/
structure ClockGen where
  /-- `S.tick`, unbounded -/
  tick : Nat
  /-- `S.clk1x` -/
  clk1x : Bool
  /-- `S.clk2x` -/
  clk2x : Bool
  deriving DecidableEq, Repr

/-- The SimulationDriver component's run state (10_state.md R23 to R25). -/
structure RunState where
  /-- `S.cycle`, unbounded -/
  cycle : Nat
  /-- `S.reset`, the reset line, 1 = asserted -/
  resetLine : Bool
  /-- `S.term_done` -/
  termDone : Bool
  /-- `S.term_overrun` -/
  termOverrun : Bool
  deriving DecidableEq, Repr

/-- The diagnostic outputs and the closing of a run (10_state.md R30, 43_simulation_driver.md R152,
70_reset_and_hazards.md R185 steps 3 and 6). -/
structure Diagnostics where
  /-- the events emitted so far, newest first -/
  events : List Event
  /-- the trace sink is open -/
  sinkOpen : Bool
  /-- the device's `finalize()` has been called -/
  finalized : Bool
  deriving DecidableEq, Repr

/-- The model's record of the device under test (43_simulation_driver.md R142): not state of this
hardware (10_state.md R10). DESIGN CHOICE: log entries 7 and 8, safe. -/
structure Environment where
  /-- the lines after the last `evaluate` -/
  sampled : Lines
  /-- the lines the next `evaluate` calls return, next first; when it is empty the free function
  `Config.evaluate` answers -/
  script : List Lines
  /-- the device's hidden state, read and advanced by `Config.evaluate` -/
  dutState : Nat
  deriving DecidableEq, Repr

/-- The whole state `S`. -/
structure State where
  mm : MemoryModel
  rsp : Responder
  clk : ClockGen
  run : RunState
  cfg : Params
  diag : Diagnostics
  env : Environment
  deriving DecidableEq, Repr

/-- Why the machine stops with a fault: never. "The hardware raises no synchronous exception: no
operation of this spec traps, faults, aborts" (60_exceptions.md R165). DEDUCED: log entry 19. -/
inductive Fault where
  deriving DecidableEq, Repr

/-- Why the model gives an operation no meaning. -/
inductive Refusal where
  /-- an instruction with no meaning yet; raised by an arm of `exec` only (none is left); safe -/
  | notModelled (mnemonic : String)
  /-- the dispatch word's state bits are `11`, which names no state: "should refuse it (give it no
  step)" (42_bus_responder.md R125); raised by `RESERVED_ST3`; safe -/
  | reservedState
  /-- an address with non-zero bits [1:0] while `ADDR_MODE = refuse` (20_memory.md R46, "the model
  gives such an access no meaning and refuses it"); raised by the memory operations of
  `RETIRE_READ`, `RETIRE_WRITE` and the boot load; safe -/
  | unalignedAddress
  deriving DecidableEq, Repr

/-- The state right after construction with parameters `p`, before the image load (BOOT steps 1, 3
and 4, 70_reset_and_hazards.md R185; reset values, 10_state.md R32), the unspecified values being
`d`. -/
def State.construct (p : Params) (d : Draws) : State :=
  { mm := { cells := [], mapped := [], defaultValue := p.defaultValue, littleEndian := p.littleEndian, logStores := p.logStores }
    rsp := { st := .idle, capAdr := d.capAdr, capDat := d.capDat, capSel := d.capSel, ack := false, rdata := p.rdataInit }
    clk := { tick := 0, clk1x := d.clk1x, clk2x := d.clk2x }
    run := { cycle := 0, resetLine := true, termDone := false, termOverrun := false }
    cfg := p
    diag := { events := [], sinkOpen := true, finalized := false }
    env := { sampled := d.sampled, script := [], dutState := 0 } }

/-- The machine after reset: construction with the parameters of Config.lean, whose image is absent,
so that the boot load changes nothing (40_memory_model_ops.md R87). Log entries 9 to 12 and 16. -/
def State.reset : State := State.construct Config.params Config.draws

end Sys2Proof.Machine
end

