-- ==== Sys2Proof/Machine/Flags.lean ====
section
/-! DEFINITION. The one-bit state (10_state.md R31): the reset line, the termination flags, and the
tests on the counters. Acknowledge is written by the responder micro-operations, the clock bits by
the phases. -/

namespace Sys2Proof.Machine

/-- The reset line after a boundary: 0 once the counter, not yet advanced, has reached the reset
length; it is never set again (43_simulation_driver.md R147). -/
def resetAfter (cycle resetCycle : Nat) (line : Bool) : Bool :=
  if resetCycle ≤ cycle then false else line

/-- `S.term_done` after step 5: set by `done = 1`, never cleared (R150). -/
def doneAfter (done flag : Bool) : Bool := if done then true else flag

/-- `S.term_overrun` after step 5: set when the counter exceeds the run length, never cleared
(R150). -/
def overrunAfter (cycle runCycles : Nat) (flag : Bool) : Bool :=
  if runCycles < cycle then true else flag

/-- The run has terminated (10_state.md R25). -/
def terminated (s : State) : Bool := s.run.termDone || s.run.termOverrun

/-- The phase index, `S.tick mod 4` (10_state.md R21, 30_encoding.md R65). -/
def phaseIndex (s : State) : PhaseIndex := BitVec.ofNat 2 (s.clk.tick % Config.tableLen)

/-- The tick is a boundary tick (41_clock_phase_generator.md R105). -/
def isBoundary (s : State) : Bool := s.clk.tick % Config.tableLen == s.cfg.boundaryIndex.val

/-- A heartbeat is due: the advanced counter is a multiple of a positive interval
(60_exceptions.md R179). -/
def heartbeatDue (cycle hbCycles : Nat) : Bool := decide (0 < hbCycles) && decide (cycle % hbCycles = 0)

end Sys2Proof.Machine
end

