-- ==== Sys2Proof/Machine/Operands.lean ====
section
/-! DEFINITION. Operand forms: the key of an address, the byte lanes of a word, the merge of a
masked write, the address of an image word (20_memory.md R43, R44; 30_encoding.md R69, R70), and
reading and writing stored bytes. -/

namespace Sys2Proof.Machine

/-- `key(addr) = addr[31:2] ++ 0b00` (20_memory.md R44). -/
def key (addr : Word) : Word := addr.extractLsb' 2 30 ++ 0b00#2

/-- The address is word-aligned: bits [1:0] are zero (20_memory.md R46). -/
def aligned (addr : Word) : Bool := addr.extractLsb' 0 2 == 0#2

/-- `laneMask(be)`: the bits of the byte lanes a byte-enable selects (30_encoding.md R69). -/
def laneMask (be : LaneSel) : Word :=
  (if be.getLsbD 3 then 0xFF000000#32 else 0#32) ||| (if be.getLsbD 2 then 0x00FF0000#32 else 0#32) |||
    (if be.getLsbD 1 then 0x0000FF00#32 else 0#32) ||| (if be.getLsbD 0 then 0x000000FF#32 else 0#32)

/-- The word a masked write leaves: `(old & ~m) | (word & m)` (40_memory_model_ops.md R84). Each bit
of the byte-enable gates its own byte; the reference logic's defect is not reproduced
(90_conflicts.md C2). -/
def mergeLanes (be : LaneSel) (old word : Word) : Word :=
  (old &&& ~~~laneMask be) ||| (word &&& laneMask be)

/-- Byte `i` of a word, byte 0 the most significant: `w[31-8*i : 24-8*i]` (20_memory.md R44,
decision D11). -/
def wordByte (w : Word) (i : Nat) : Byte := w.extractLsb' (24 - 8 * i) 8

/-- A byte-enable selects byte `i` of a word: bit `3-i` is set (20_memory.md R43, R44). -/
def selectsByte (be : LaneSel) (i : Nat) : Bool := be.getLsbD (3 - i)

/-- A word from its four bytes, the most significant first. -/
def wordOfBytes (b0 b1 b2 b3 : Byte) : Word := b0 ++ b1 ++ b2 ++ b3

/-- The address of the `i`-th word of an image: `(base + 4*i) mod 2^32` (30_encoding.md R70). -/
def imageAddr (base : Word) (i : Nat) : Word := base + BitVec.ofNat 32 (4 * i)

/-- What an unlisted byte reads as: the byte of the default word at its place in the word
(10_state.md R12, R14; 40_memory_model_ops.md R81). -/
def fillByte (dv : Word) (a : Nat) : Byte := wordByte dv (a % 4)

/-- The byte at an address: the listed one, else the fill. -/
def Memory.get (dv : Word) : Memory → Nat → Byte
  | [], a => fillByte dv a
  | (x, b) :: m, a => if x = a then b else Memory.get dv m a

/-- Put a cell at its place in a list of rising addresses that does not list its address. -/
def Memory.insert (c : Host.Cell) : Memory → Memory
  | [] => [c]
  | d :: m => if c.1 < d.1 then c :: d :: m else d :: Memory.insert c m

/-- The list without the cells of an address. -/
def Memory.remove (a : Nat) : Memory → Memory
  | [] => []
  | d :: m => if d.1 = a then Memory.remove a m else d :: Memory.remove a m

/-- Write a byte, keeping the canonical form: a byte equal to the fill is not listed. -/
def Memory.set (dv : Word) (m : Memory) (a : Nat) (b : Byte) : Memory :=
  if b = fillByte dv a then Memory.remove a m else Memory.insert (a, b) (Memory.remove a m)

/-- The canonical form: addresses strictly rising and below 2^32, no byte equal to the fill. -/
def Memory.wf (dv : Word) : Memory → Bool
  | [] => true
  | [c] => decide (c.1 < 2 ^ 32) && decide (c.2 ≠ fillByte dv c.1)
  | c :: d :: m => decide (c.1 < d.1) && decide (c.2 ≠ fillByte dv c.1) && Memory.wf dv (d :: m)

/-- The word at a key, byte by byte (20_memory.md R44). -/
def Memory.getWord (dv : Word) (m : Memory) (k : Nat) : Word :=
  wordOfBytes (Memory.get dv m k) (Memory.get dv m (k + 1)) (Memory.get dv m (k + 2)) (Memory.get dv m (k + 3))

/-- Replace the word at a key. -/
def Memory.setWord (dv : Word) (m : Memory) (k : Nat) (w : Word) : Memory :=
  Memory.set dv (Memory.set dv (Memory.set dv (Memory.set dv m k (wordByte w 0)) (k + 1) (wordByte w 1))
    (k + 2) (wordByte w 2)) (k + 3) (wordByte w 3)

/-- Add a key to a rising list of keys. -/
def insertKey (k : Nat) : List Nat → List Nat
  | [] => [k]
  | x :: xs => if k < x then k :: x :: xs else if k = x then x :: xs else x :: insertKey k xs

/-- The list of mapped keys is canonical: strictly rising, each a multiple of 4 below 2^32
(10_state.md R11). -/
def keysWf : List Nat → Bool
  | [] => true
  | [k] => decide (k % 4 = 0) && decide (k < 2 ^ 32)
  | k :: l :: ks => decide (k % 4 = 0) && decide (k < l) && keysWf (l :: ks)

end Sys2Proof.Machine
end

