-- ==== Sys2Proof/Machine/Ops.lean ====
section
/-! DEFINITION. The named operations over the parts of the state, among them those of the spec that
have no encoding (30_encoding.md R66): `MEM.READ`, `MEM.WRITEWORD`, `MEM.WRITEMASKED`,
`CLK.ADVANCE`; and the end of a run, which stands where another machine takes an exception: there is
no trap entry and no return (60_exceptions.md R165, R170, R171). -/

namespace Sys2Proof.Machine

/-- Run one operation after another; a refusal ends the sequence. -/
def andThen (o : Host.Outcome State Fault Refusal) (k : State → Host.Outcome State Fault Refusal) :
    Host.Outcome State Fault Refusal :=
  match o with
  | .next s => k s
  | .fault f => .fault f
  | .refused r => .refused r

/-! ### Diagnostic events -/

/-- `if c then emit <Event>`: append to the list that no rule reads (00_scope.md R8, 10_state.md R30). -/
def emitIf (c : Bool) (e : Event) (s : State) : State :=
  { s with diag := { s.diag with events := if c then e :: s.diag.events else s.diag.events } }

/-! ### Memory model -/

/-- `MEM.READ(addr)`: the stored word, or the default if the key is unmapped; changes nothing
(40_memory_model_ops.md R81). -/
def memRead (s : State) (addr : Word) : Word :=
  if (key addr).toNat ∈ s.mm.mapped then Memory.getWord s.mm.defaultValue s.mm.cells (key addr).toNat
  else s.mm.defaultValue

/-- The byte at a byte address, as a reader names it (20_memory.md R44, decision D11). -/
def memByte (s : State) (a : Word) : Byte := wordByte (memRead s a) (a.toNat % 4)

/-- `S.map[key] <- word`: every other key keeps its word; the key becomes mapped
(40_memory_model_ops.md R82). The bytes an unmapped key's cells might hold are replaced whole. -/
def storeWord (addr word : Word) (s : State) : State :=
  { s with
    mm := { s.mm with
      cells := Memory.setWord s.mm.defaultValue s.mm.cells (key addr).toNat word
      mapped := insertKey (key addr).toNat s.mm.mapped } }

/-- The store log of a write (40_memory_model_ops.md R83). -/
def logStore (addr old new : Word) (s : State) : State :=
  emitIf s.mm.logStores (.storeLog (key addr) old new) s

/-- `MEM.WRITEWORD(addr, word)` (40_memory_model_ops.md R82). -/
def memWriteWord (addr word : Word) (s : State) : State :=
  logStore addr (memRead s addr) word (storeWord addr word s)

/-- `MEM.WRITEMASKED(addr, be, word)`: nothing for byte-enable 0, else a read, a lane merge and a
write of one word (40_memory_model_ops.md R84, R85). -/
def memWriteMasked (addr : Word) (be : LaneSel) (word : Word) (s : State) : State :=
  if be = 0#4 then s
  else memWriteWord addr (mergeLanes be (memRead s addr) word) s

/-- The model gives an operation on this address no meaning: `ADDR_MODE = refuse` and the address is
not word-aligned (20_memory.md R46, 40_memory_model_ops.md R80). -/
def refusesAddr (s : State) (addr : Word) : Bool :=
  match s.cfg.addrMode with
  | .mask => false
  | .refuse => !aligned addr

/-- Perform a memory operation on an address, or refuse it (20_memory.md R46). -/
def accessing (addr : Word) (s : State) (o : Host.Outcome State Fault Refusal) :
    Host.Outcome State Fault Refusal :=
  if refusesAddr s addr then .refused .unalignedAddress else o

/-! ### Clock phase generator -/

/-- The entry of the phase table at an index (41_clock_phase_generator.md R101). -/
def tableEntry (p : PhaseTable) (i : Nat) : ClockBits :=
  match i with
  | 0 => p.entry0
  | 1 => p.entry1
  | 2 => p.entry2
  | _ => p.entry3

/-- Drive the two clock bits of a table entry (30_encoding.md R65). -/
def drivePhase (i : Nat) (s : State) : State :=
  { s with
    clk := { s.clk with
      clk1x := (tableEntry s.cfg.phaseTable i).clk1x
      clk2x := (tableEntry s.cfg.phaseTable i).clk2x } }

/-- The tick counter's increment (41_clock_phase_generator.md R101, first line). -/
def countTick (s : State) : State := { s with clk := { s.clk with tick := s.clk.tick + 1 } }

/-- `CLK.ADVANCE()` (41_clock_phase_generator.md R101). -/
def clkAdvance (s : State) : State :=
  drivePhase ((s.clk.tick + 1) % Config.tableLen) (countTick s)

/-! ### Bus responder -/

/-- The request lines and `done` on the port. -/
def present (o : Lines) (s : State) : State := { s with env := { s.env with sampled := o } }

/-- The request lines of a REQ word on the port; `done` is not part of the word and stays
(30_encoding.md R61). -/
def presentReq (cyc stb we : Bool) (sel : LaneSel) (adr wdata : Word) (s : State) : State :=
  present { cyc := cyc, stb := stb, we := we, sel := sel, adr := adr, wdata := wdata, done := s.env.sampled.done } s

/-- The responder's state, captures and outputs replaced. -/
def setResponder (r : Responder) (s : State) : State := { s with rsp := r }

/-! ### Run control -/

/-- The reset rule of a boundary (43_simulation_driver.md R147). -/
def applyReset (s : State) : State :=
  { s with run := { s.run with resetLine := resetAfter s.run.cycle s.cfg.resetCycle s.run.resetLine } }

/-- The counter's advance at a boundary (43_simulation_driver.md R148). -/
def countCycle (s : State) : State := { s with run := { s.run with cycle := s.run.cycle + 1 } }

/-- The heartbeat of a boundary (60_exceptions.md R179). -/
def heartbeat (s : State) : State :=
  emitIf (heartbeatDue s.run.cycle s.cfg.hbCycles) (.heartbeat s.run.cycle) s

/-- Step 4 of a tick: the trace event, if tracing is enabled (60_exceptions.md R178). -/
def traceTick (s : State) : State :=
  emitIf s.cfg.traceEnabled (.trace s.clk.tick) s

/-- Step 5 of a tick: both termination causes, each in its own flag (43_simulation_driver.md R150). -/
def testTermination (s : State) : State :=
  { s with
    run := { s.run with
      termDone := doneAfter s.env.sampled.done s.run.termDone
      termOverrun := overrunAfter s.run.cycle s.cfg.runCycles s.run.termOverrun } }

/-- After the run: close the trace sink, then the device's finalization hook, once
(43_simulation_driver.md R152). -/
def closeRun (s : State) : State :=
  { s with diag := { s.diag with sinkOpen := false, finalized := true } }

/-! ### The device under test -/

/-- The five driven lines as the device sees them (10_state.md R28). -/
def driven (s : State) : Driven :=
  { clk1x := s.clk.clk1x, clk2x := s.clk.clk2x, reset := s.run.resetLine, rdata := s.rsp.rdata, ack := s.rsp.ack }

/-- Step 2 of a tick: one `evaluate` of the device under test, whose seven lines are sampled
(43_simulation_driver.md R142). The next queued lines, else the free function's. -/
def evaluateDevice (s : State) : State :=
  match s.env.script with
  | o :: rest => { s with env := { s.env with sampled := o, script := rest } }
  | [] =>
    { s with
      env := { s.env with
        sampled := (Config.evaluate s.env.dutState (driven s)).2
        dutState := (Config.evaluate s.env.dutState (driven s)).1 } }

end Sys2Proof.Machine
end

