-- ==== Sys2Proof/Machine/Responder.lean ====
section
/-! DEFINITION. The responder micro-operations (42_bus_responder.md R117 to R121, R125) and
`RSP.STEP` (R116). A micro-operation has its effect in every state: which one a boundary runs is the
dispatch's choice (log entry 5). The lines it samples are `env.sampled`. -/

namespace Sys2Proof.Machine

/-- `IDLE_HOLD()`: acknowledge falls, nothing else changes (R117). -/
def idleHold (s : State) : State := setResponder { s.rsp with ack := false } s

/-- `ACCEPT_READ(o)`: capture the address (R118; the other captures keep their values, decision
D23). -/
def acceptRead (s : State) : State :=
  setResponder { s.rsp with capAdr := s.env.sampled.adr, st := .readPending, ack := false } s

/-- `ACCEPT_WRITE(o)`: capture address, data and byte-enable (R119). -/
def acceptWrite (s : State) : State :=
  setResponder
    { s.rsp with
      capAdr := s.env.sampled.adr, capDat := s.env.sampled.wdata, capSel := s.env.sampled.sel
      st := .writePending, ack := false }
    s

/-- `RETIRE_READ()`: drive the captured address's word, acknowledge (R120). -/
def retireRead (s : State) : Host.Outcome State Fault Refusal :=
  accessing s.rsp.capAdr s
    (.next (setResponder { s.rsp with rdata := memRead s s.rsp.capAdr, ack := true, st := .idle } s))

/-- `RETIRE_WRITE()`: perform the captured masked write, acknowledge (R121). -/
def retireWrite (s : State) : Host.Outcome State Fault Refusal :=
  accessing s.rsp.capAdr s
    (.next (setResponder { s.rsp with ack := true, st := .idle }
      (memWriteMasked s.rsp.capAdr s.rsp.capSel s.rsp.capDat s)))

/-- `RSP.STEP(o)`, `o` being the sampled lines (R116). -/
def rspStep (s : State) : Host.Outcome State Fault Refusal :=
  match s.rsp.st with
  | .idle =>
    if s.env.sampled.cyc && s.env.sampled.stb then
      (if s.env.sampled.we then .next (acceptWrite s) else .next (acceptRead s))
    else .next (idleHold s)
  | .readPending => retireRead s
  | .writePending => retireWrite s

/-- `IDLE_HOLD`, row `st = 00, cyc = 0` (R117). -/
def execIdleHoldNoCyc (s : State) : Host.Outcome State Fault Refusal := .next (idleHold s)

/-- `IDLE_HOLD`, row `st = 00, cyc = 1, stb = 0` (R117). -/
def execIdleHoldNoStb (s : State) : Host.Outcome State Fault Refusal := .next (idleHold s)

/-- `ACCEPT_READ` (R118). -/
def execAcceptRead (s : State) : Host.Outcome State Fault Refusal := .next (acceptRead s)

/-- `ACCEPT_WRITE` (R119). -/
def execAcceptWrite (s : State) : Host.Outcome State Fault Refusal := .next (acceptWrite s)

/-- `RETIRE_READ` (R120); the lines are not sampled. -/
def execRetireRead (s : State) : Host.Outcome State Fault Refusal := retireRead s

/-- `RETIRE_WRITE` (R121); the lines are not sampled. -/
def execRetireWrite (s : State) : Host.Outcome State Fault Refusal := retireWrite s

/-- `RESERVED_ST3`: refused, as R125 asks of a model: "should refuse it (give it no step)". No state
of this model selects it. -/
def execReservedSt3 (_s : State) : Host.Outcome State Fault Refusal := .refused .reservedState

end Sys2Proof.Machine
end

