-- ==== Sys2Proof/Machine/Bus.lean ====
section
/-! DEFINITION. The bus commands as the master spells them on the request lines (42_bus_responder.md
R122 to R124). One execution presents the command's lines at one boundary and runs `RSP.STEP` on
them: in `Idle` the command is sampled; while a transaction is pending the lines are not looked at
and that transaction retires (30_encoding.md R61, R71(e); DEDUCED, log entry 4). -/

namespace Sys2Proof.Machine

/-- `NOP`, row `cyc = 0` (R124). -/
def execNopNoCyc (stb we : Bool) (sel : LaneSel) (adr wdata : Word) (s : State) :
    Host.Outcome State Fault Refusal :=
  rspStep (presentReq false stb we sel adr wdata s)

/-- `NOP`, row `cyc = 1, stb = 0` (R124). -/
def execNopNoStb (we : Bool) (sel : LaneSel) (adr wdata : Word) (s : State) :
    Host.Outcome State Fault Refusal :=
  rspStep (presentReq true false we sel adr wdata s)

/-- `READ` (R122): its boundary `b`; boundary `b+1` retires it whatever the lines are then. -/
def execRead (sel : LaneSel) (adr wdata : Word) (s : State) : Host.Outcome State Fault Refusal :=
  rspStep (presentReq true true false sel adr wdata s)

/-- `WRITE` (R123): its boundary `b`; boundary `b+1` retires it whatever the lines are then. -/
def execWrite (sel : LaneSel) (adr wdata : Word) (s : State) : Host.Outcome State Fault Refusal :=
  rspStep (presentReq true true true sel adr wdata s)

end Sys2Proof.Machine
end

