-- ==== Sys2Proof/Machine/Clock.lean ====
section
/-! DEFINITION. The four clock phases (41_clock_phase_generator.md R106 to R109). A phase drives the
clock bits of its table entry; the tick counter is advanced by `CLK.ADVANCE` before the phase is
selected (R101; DEDUCED, log entry 6). -/

namespace Sys2Proof.Machine

/-- `PH0`: drives entry 0 (R106). -/
def execPh0 (s : State) : Host.Outcome State Fault Refusal := .next (drivePhase 0 s)

/-- `PH1`: drives entry 1 (R107). -/
def execPh1 (s : State) : Host.Outcome State Fault Refusal := .next (drivePhase 1 s)

/-- `PH2`: drives entry 2 (R108). -/
def execPh2 (s : State) : Host.Outcome State Fault Refusal := .next (drivePhase 2 s)

/-- `PH3`: drives entry 3 (R109). -/
def execPh3 (s : State) : Host.Outcome State Fault Refusal := .next (drivePhase 3 s)

end Sys2Proof.Machine
end

