-- ==== Sys2Proof/Machine/Dispatch.lean ====
section
/-! DEFINITION. One arm per constructor of `Instr`: its meaning. -/

namespace Sys2Proof.Machine

def exec (i : Instr) (s : State) : Host.Outcome State Fault Refusal :=
  match i with
  | .nopNoCyc stb we sel adr wdata => Sys2Proof.Machine.execNopNoCyc stb we sel adr wdata s
  | .nopNoStb we sel adr wdata => Sys2Proof.Machine.execNopNoStb we sel adr wdata s
  | .read sel adr wdata => Sys2Proof.Machine.execRead sel adr wdata s
  | .write sel adr wdata => Sys2Proof.Machine.execWrite sel adr wdata s
  | .idleHoldNoCyc _ _ => Sys2Proof.Machine.execIdleHoldNoCyc s
  | .idleHoldNoStb _ => Sys2Proof.Machine.execIdleHoldNoStb s
  | .acceptRead => Sys2Proof.Machine.execAcceptRead s
  | .acceptWrite => Sys2Proof.Machine.execAcceptWrite s
  | .retireRead _ _ _ => Sys2Proof.Machine.execRetireRead s
  | .retireWrite _ _ _ => Sys2Proof.Machine.execRetireWrite s
  | .reservedSt3 _ _ _ => Sys2Proof.Machine.execReservedSt3 s
  | .ph0 => Sys2Proof.Machine.execPh0 s
  | .ph1 => Sys2Proof.Machine.execPh1 s
  | .ph2 => Sys2Proof.Machine.execPh2 s
  | .ph3 => Sys2Proof.Machine.execPh3 s

end Sys2Proof.Machine
end

