-- ==== Sys2Proof/Machine/Driver.lean ====
section
/-! DEFINITION. `DRV.TICK` (43_simulation_driver.md R141): which operations a tick selects, and the
five steps of a tick. Placing an opcode-table word where the next tick selects it. -/

namespace Sys2Proof.Machine

/-- The two bits of a responder state in a dispatch word (30_encoding.md R62). -/
def stBits : RspState → BitVec 2
  | .idle => 0b00#2
  | .readPending => 0b01#2
  | .writePending => 0b10#2

/-- The phase the tick is in (30_encoding.md R65). -/
def phaseInstr (s : State) : Instr := decodePhase (phaseIndex s)

/-- The dispatch word `S.st ++ o.cyc ++ o.stb ++ o.we` (42_bus_responder.md R116). -/
def stepWord (s : State) : BitVec 5 :=
  dispatchWord (stBits s.rsp.st) s.env.sampled.cyc s.env.sampled.stb s.env.sampled.we

/-- The micro-operation a boundary selects (30_encoding.md R63). -/
def stepInstr (s : State) : Instr := decodeStep (stepWord s)

/-- The request word on the sampled lines (30_encoding.md R61). -/
def lineWord (s : State) : BitVec 71 :=
  reqWord s.env.sampled.cyc s.env.sampled.stb s.env.sampled.we s.env.sampled.sel s.env.sampled.adr s.env.sampled.wdata

/-- The bus command the sampled lines spell (30_encoding.md R61). -/
def lineInstr (s : State) : Instr := decodeReq (lineWord s)

/-- Step 1: the counter's increment, then the phase it enters (R141, 41_clock_phase_generator.md
R101). -/
def clockStep (s : State) : Host.Outcome State Fault Refusal :=
  exec (phaseInstr (countTick s)) (countTick s)

/-- The rest of step 3 after the responder: reset rule, counter, heartbeat, in this order (R143). -/
def afterResponder (s : State) : State := heartbeat (countCycle (applyReset s))

/-- Step 3 on a boundary tick: the responder's micro-operation, then the rest (R141, R143). -/
def boundaryStep (s : State) : Host.Outcome State Fault Refusal :=
  andThen (exec (stepInstr s) s) (fun t => .next (afterResponder t))

/-- Step 3: nothing on a tick that is no boundary (R141). -/
def sampleStep (s : State) : Host.Outcome State Fault Refusal :=
  if isBoundary s then boundaryStep s else .next s

/-- `DRV.TICK`: the five steps in their order (R141). -/
def drvTick (s : State) : Host.Outcome State Fault Refusal :=
  andThen (clockStep s) (fun s1 =>
    andThen (sampleStep (evaluateDevice s1)) (fun s3 => .next (testTermination (traceTick s3))))

/-- A step after the end of the run (R151, R152): the first closes the trace sink and finalizes the
device, later ones change nothing; no tick runs (decision D26; log entry 15). -/
def afterRun (s : State) : State := if s.diag.finalized then s else closeRun s

/-! ### Placing a word -/

/-- The state whose next tick has phase index `idx`, in a run that has not terminated. -/
def readyAt (idx : Nat) (s : State) : State :=
  { s with
    clk := { s.clk with tick := 4 * (s.clk.tick / 4) + (idx + 3) % 4 }
    run := { s.run with termDone := false, termOverrun := false }
    diag := { s.diag with sinkOpen := true, finalized := false } }

/-- The next `evaluate` returns these lines. -/
def queueLines (o : Lines) (s : State) : State :=
  { s with env := { s.env with script := o :: s.env.script } }

/-- The responder is in a given state. -/
def enterState (t : RspState) (s : State) : State := setResponder { s.rsp with st := t } s

/-- Lines with the given controls and zero operands, no completion. -/
def controlLines (cyc stb we : Bool) : Lines :=
  { cyc := cyc, stb := stb, we := we, sel := 0#4, adr := 0#32, wdata := 0#32, done := false }

/-- Lines of a request word, no completion. -/
def requestLines (cyc stb we : Bool) (sel : LaneSel) (adr wdata : Word) : Lines :=
  { cyc := cyc, stb := stb, we := we, sel := sel, adr := adr, wdata := wdata, done := false }

/-- Make the next tick a boundary tick at which the responder is in state `t` and the device
returns the lines `o`. -/
def placeAtBoundary (t : RspState) (o : Lines) (s : State) : State :=
  queueLines o (enterState t (readyAt s.cfg.boundaryIndex.val s))

/-- Make the next tick enter phase `i`, with no request on the lines. -/
def placePhase (i : Nat) (s : State) : State := queueLines (controlLines false false false) (readyAt i s)

/-- Place an operation where the next tick selects it: a bus command on the lines of a boundary in
`Idle`, a micro-operation by responder state and control lines, a phase by the tick counter. No
state selects `RESERVED_ST3` (42_bus_responder.md R125; log entry 17). -/
def placeInstr (i : Instr) (s : State) : State :=
  match i with
  | .nopNoCyc stb we sel adr wdata => placeAtBoundary .idle (requestLines false stb we sel adr wdata) s
  | .nopNoStb we sel adr wdata => placeAtBoundary .idle (requestLines true false we sel adr wdata) s
  | .read sel adr wdata => placeAtBoundary .idle (requestLines true true false sel adr wdata) s
  | .write sel adr wdata => placeAtBoundary .idle (requestLines true true true sel adr wdata) s
  | .idleHoldNoCyc stb we => placeAtBoundary .idle (controlLines false stb we) s
  | .idleHoldNoStb we => placeAtBoundary .idle (controlLines true false we) s
  | .acceptRead => placeAtBoundary .idle (controlLines true true false) s
  | .acceptWrite => placeAtBoundary .idle (controlLines true true true) s
  | .retireRead cyc stb we => placeAtBoundary .readPending (controlLines cyc stb we) s
  | .retireWrite cyc stb we => placeAtBoundary .writePending (controlLines cyc stb we) s
  | .reservedSt3 _ _ _ => s
  | .ph0 => placePhase 0 s
  | .ph1 => placePhase 1 s
  | .ph2 => placePhase 2 s
  | .ph3 => placePhase 3 s

/-- Place an opcode-table word; a word that decodes to nothing changes nothing. -/
def placeTableWord (nbits w : Nat) (s : State) : State :=
  match decodeTableWord nbits w with
  | none => s
  | some i => placeInstr i s

end Sys2Proof.Machine
end

