-- ==== Sys2Proof/Machine/Step.lean ====
section
/-! DEFINITION. The machine's step: one `DRV.TICK` while the run has not terminated
(43_simulation_driver.md R151). -/

namespace Sys2Proof.Machine

/-- One step. -/
def step (s : State) : Host.Outcome State Fault Refusal :=
  if terminated s then .next (afterRun s) else drvTick s

/-- The state in which the next step selects and runs the operation of an opcode-table word. -/
def State.withFetchWord (s : State) (nbits w : Nat) : State := placeTableWord nbits w s

end Sys2Proof.Machine
end

