-- ==== Sys2Proof/Machine/Image.lean ====
section
/-! DEFINITION. The memory-image text and `MEM.LOADIMAGE` (30_encoding.md R67, R68;
40_memory_model_ops.md R86, R87), and the boot that calls it (70_reset_and_hazards.md R185, R187). -/

namespace Sys2Proof.Machine

/-- Whitespace of an image: space, tab, line feed, carriage return, vertical tab, form feed
(30_encoding.md R68). -/
def isImageSpace (c : Char) : Bool :=
  c.toNat == 32 || c.toNat == 9 || c.toNat == 10 || c.toNat == 13 || c.toNat == 11 || c.toNat == 12

/-- The tokens of a text: the maximal runs of other characters (R68). `cur` is the token read so
far, last character first. -/
def tokensFrom (cur : List Char) : List Char → List (List Char)
  | [] => if cur.isEmpty then [] else [cur.reverse]
  | c :: cs =>
    if isImageSpace c then (if cur.isEmpty then tokensFrom [] cs else cur.reverse :: tokensFrom [] cs)
    else tokensFrom (c :: cur) cs

/-- The tokens of an image text, left to right. -/
def tokens (text : List Char) : List (List Char) := tokensFrom [] text

/-- The value of a hexadecimal digit of either case, if it is one (R68). -/
def hexDigit (c : Char) : Option Nat :=
  let n := c.toNat
  if 48 ≤ n ∧ n ≤ 57 then some (n - 48)
  else if 97 ≤ n ∧ n ≤ 102 then some (n - 87)
  else if 65 ≤ n ∧ n ≤ 70 then some (n - 55)
  else none

/-- The number a run of hexadecimal digits writes, the most significant first. -/
def hexValue (acc : Nat) : List Char → Option Nat
  | [] => some acc
  | c :: cs =>
    match hexDigit c with
    | some d => hexValue (16 * acc + d) cs
    | none => none

/-- The word a token writes: 1 to 8 hexadecimal digits, no prefix, no sign; any other token is
unparseable (R68, decision D15). -/
def parseToken (t : List Char) : Option Word :=
  if 1 ≤ t.length ∧ t.length ≤ 8 then
    match hexValue 0 t with
    | some v => some (BitVec.ofNat 32 v)
    | none => none
  else none

/-- Write the words of the tokens at consecutive word addresses, token `i` first, up to the first
unparseable token (40_memory_model_ops.md R86). -/
def loadTokens (base : Word) : Nat → List (List Char) → State → State
  | _, [], s => s
  | i, t :: ts, s =>
    match parseToken t with
    | none => s
    | some w => loadTokens base (i + 1) ts (memWriteWord (imageAddr base i) w s)

/-- `MEM.LOADIMAGE(source, base)`: nothing for an absent source (R86, R87). With
`ADDR_MODE = refuse` a base that is not word-aligned has no meaning (20_memory.md R46). -/
def memLoadImage (source : Option (List Char)) (base : Word) (s : State) :
    Host.Outcome State Fault Refusal :=
  match source with
  | none => .next s
  | some text => accessing base s (.next (loadTokens base 0 (tokens text) s))

/-- BOOT steps 1 to 4: construction with the parameters `p`, the unspecified values being `d`, and the
image load; the machine is then ready for its first tick (70_reset_and_hazards.md R185, R187). DESIGN
CHOICE: 41_clock_phase_generator.md R103 restricts `PHASE_TABLE` to 24 tables and says nothing of
another one; `boot` and the tick accept each of the 256 and drive its entries. Log entry 31, safe. -/
def boot (p : Params) (d : Draws) : Host.Outcome State Fault Refusal :=
  memLoadImage p.image p.imageBase (State.construct p d)

end Sys2Proof.Machine
end

