-- ==== Sys2Proof/WellFormed.lean ====
section
/-! DEFINITION. Which operations and which configurations are well formed. -/

namespace Sys2Proof

/-- An operation is well formed unless its dispatch word has the state bits `11`, which name no
state (30_encoding.md R62, R71(g)). Every other encoding is legal: "Nothing the master can put on
the request lines is illegal" (R71); operand widths are in the types. -/
def Instr.wellFormed : Instr → Bool
  | .nopNoCyc .. => true
  | .nopNoStb .. => true
  | .read .. => true
  | .write .. => true
  | .idleHoldNoCyc .. => true
  | .idleHoldNoStb .. => true
  | .acceptRead => true
  | .acceptWrite => true
  | .retireRead .. => true
  | .retireWrite .. => true
  | .reservedSt3 .. => false
  | .ph0 => true
  | .ph1 => true
  | .ph2 => true
  | .ph3 => true

/-- How often a four-entry column changes when it is read cyclically, entry 3 followed by entry 0
(41_clock_phase_generator.md R103). -/
def columnChanges (b0 b1 b2 b3 : Bool) : Nat :=
  (b0 ^^ b1).toNat + (b1 ^^ b2).toNat + (b2 ^^ b3).toNat + (b3 ^^ b0).toNat

/-- The 1x column of a table changes exactly twice per traversal (R103). -/
def PhaseTable.clk1xTwice (p : PhaseTable) : Bool :=
  columnChanges p.entry0.clk1x p.entry1.clk1x p.entry2.clk1x p.entry3.clk1x == 2

/-- The 2x column of a table changes at every tick, 4 times per traversal (R103). -/
def PhaseTable.clk2xAlways (p : PhaseTable) : Bool :=
  columnChanges p.entry0.clk2x p.entry1.clk2x p.entry2.clk2x p.entry3.clk2x == 4

/-- The legal phase tables (R103); the spec counts 24 of the 256. -/
def PhaseTable.legal (p : PhaseTable) : Bool :=
  p.clk1xTwice && p.clk2xAlways

/-- A configuration is legal when its phase table is (R6: every other value is allowed, the boundary
index is 0 to 3 by its type). DESIGN CHOICE: the source's "1x-clock-boundary ticks", read as "a tick
on which the 1x clock changes", would restrict the pair of table and boundary index
(41_clock_phase_generator.md R105 gives that as a reading only); the model does not restrict it.
Log entry 30, safe. No operation tests this predicate: a run with a table that is not legal is log
entry 31. -/
def Params.legal (p : Params) : Bool :=
  p.phaseTable.legal

end Sys2Proof
end

