-- ==== Sys2Proof/Safety.lean ====
section
/-! DEFINITION. What counts as a safe state, and the premises on a master, in the terms claims use. -/

namespace Sys2Proof.Machine

/-! ### The invariant of a run -/

/-- The memory model is in its form: bytes and keys canonical, every listed byte in a mapped word
(10_state.md R11, R14). -/
structure MemoryInv (m : MemoryModel) : Prop where
  cells_wf : Memory.wf m.defaultValue m.cells = true
  keys_wf : keysWf m.mapped = true
  cells_mapped : ∀ c ∈ m.cells, c.1 - c.1 % 4 ∈ m.mapped

/-- The attributes of the memory model are those of the configuration (10_state.md R12, R13). -/
structure AttributeInv (s : State) : Prop where
  default_value : s.mm.defaultValue = s.cfg.defaultValue
  little_endian : s.mm.littleEndian = s.cfg.littleEndian
  log_stores : s.mm.logStores = s.cfg.logStores

/-- How many boundaries the ticks 1 to `tick` hold (43_simulation_driver.md R145,
41_clock_phase_generator.md R105). -/
def boundariesBy (boundaryIndex : Fin 4) (tick : Nat) : Nat :=
  (tick + (4 - boundaryIndex.val) % 4) / 4

/-- The counters, the reset line and the overrun flag agree (43_simulation_driver.md R145, R147,
R150, R151). -/
structure CounterInv (s : State) : Prop where
  cycle_eq : s.run.cycle = boundariesBy s.cfg.boundaryIndex s.clk.tick
  reset_eq : s.run.resetLine = decide (s.run.cycle ≤ s.cfg.resetCycle)
  overrun_eq : s.run.termOverrun = decide (s.cfg.runCycles < s.run.cycle)
  cycle_le : s.run.cycle ≤ s.cfg.runCycles + 1
  overrun_at_boundary : s.run.termOverrun = true → s.clk.tick % 4 = s.cfg.boundaryIndex.val

/-- After the first tick the clock bits are the table's (10_state.md R22). -/
def ClockInv (s : State) : Prop :=
  0 < s.clk.tick →
    s.clk.clk1x = (tableEntry s.cfg.phaseTable (s.clk.tick % 4)).clk1x ∧
    s.clk.clk2x = (tableEntry s.cfg.phaseTable (s.clk.tick % 4)).clk2x

/-- Acknowledge is 1 only in `Idle` (42_bus_responder.md R128). -/
def AckInv (s : State) : Prop := s.rsp.ack = true → s.rsp.st = .idle

/-- The sink is closed and the device finalized together, and only after the end of the run
(43_simulation_driver.md R152). -/
structure CloseInv (s : State) : Prop where
  sink_eq : s.diag.sinkOpen = !s.diag.finalized
  finalized_ends : s.diag.finalized = true → terminated s = true

/-- The invariant of a run: it holds after boot, and every step keeps it. -/
structure Inv (s : State) : Prop where
  memory : MemoryInv s.mm
  attributes : AttributeInv s
  counters : CounterInv s
  clocks : ClockInv s
  acknowledge : AckInv s
  closing : CloseInv s

/-! ### Readings of one tick -/

/-- The next tick is a boundary tick (41_clock_phase_generator.md R105). -/
def nextIsBoundary (s : State) : Bool := (s.clk.tick + 1) % 4 == s.cfg.boundaryIndex.val

/-- The lines are a request: "cycle-valid and strobe together" (30_encoding.md R61). -/
def isRequest (o : Lines) : Bool := o.cyc && o.stb

/-- Two records present the same request: the premise M1 on a master, "it holds `cyc`, `stb`, `we`,
`adr`, `wdata`, `sel` unchanged" (70_reset_and_hazards.md R190). -/
def sameRequest (r o : Lines) : Bool :=
  r.cyc == o.cyc && r.stb == o.stb && r.we == o.we && r.sel == o.sel && r.adr == o.adr && r.wdata == o.wdata

/-- A byte address lies in the bytes a masked write stores to: the lanes its byte-enable selects of
the word at its key (20_memory.md R43, R44). -/
def storesTo (addr : Word) (be : LaneSel) (a : Word) : Bool :=
  key a == key addr && selectsByte be (a.toNat % 4)

/-- The micro-operation an execution of `i` in `s` amounts to: of a bus command, the one that the
responder's state and the command's control lines select (30_encoding.md R63, R71(e)); a
micro-operation or a phase is its own. -/
def microOp (i : Instr) (s : State) : Instr :=
  match i with
  | .nopNoCyc stb we _ _ _ => decodeStep (dispatchWord (stBits s.rsp.st) false stb we)
  | .nopNoStb we _ _ _ => decodeStep (dispatchWord (stBits s.rsp.st) true false we)
  | .read _ _ _ => decodeStep (dispatchWord (stBits s.rsp.st) true true false)
  | .write _ _ _ => decodeStep (dispatchWord (stBits s.rsp.st) true true true)
  | .idleHoldNoCyc stb we => .idleHoldNoCyc stb we
  | .idleHoldNoStb we => .idleHoldNoStb we
  | .acceptRead => .acceptRead
  | .acceptWrite => .acceptWrite
  | .retireRead cyc stb we => .retireRead cyc stb we
  | .retireWrite cyc stb we => .retireWrite cyc stb we
  | .reservedSt3 cyc stb we => .reservedSt3 cyc stb we
  | .ph0 => .ph0
  | .ph1 => .ph1
  | .ph2 => .ph2
  | .ph3 => .ph3

/-- An execution of `i` in `s` retires a read. -/
def retiresRead (i : Instr) (s : State) : Bool := (microOp i s).mnemonic == "RETIRE_READ"

/-- An execution of `i` in `s` retires a write: the only way a run changes memory
(20_memory.md R41). -/
def retiresWrite (i : Instr) (s : State) : Bool := (microOp i s).mnemonic == "RETIRE_WRITE"

/-- An execution of `i` in `s` accepts a read. -/
def acceptsRead (i : Instr) (s : State) : Bool := (microOp i s).mnemonic == "ACCEPT_READ"

/-- An execution of `i` in `s` accepts a write. -/
def acceptsWrite (i : Instr) (s : State) : Bool := (microOp i s).mnemonic == "ACCEPT_WRITE"

/-- The whitespace of an image text: space, horizontal tab, line feed, carriage return, vertical tab,
form feed (30_encoding.md R68). -/
def imageSpaces : List Char := [' ', '\t', '\n', '\r', Char.ofNat 11, Char.ofNat 12]

/-- The digits of base 16 in order, lower case (30_encoding.md R68). -/
def lowerDigits : List Char :=
  ['0', '1', '2', '3', '4', '5', '6', '7', '8', '9', 'a', 'b', 'c', 'd', 'e', 'f']

/-- The digits of base 16 in order, upper case (30_encoding.md R68). -/
def upperDigits : List Char :=
  ['0', '1', '2', '3', '4', '5', '6', '7', '8', '9', 'A', 'B', 'C', 'D', 'E', 'F']

/-- The character writes the digit, in either case. -/
def writesDigit (c : Char) (d : Nat) : Prop := lowerDigits[d]? = some c ∨ upperDigits[d]? = some c

/-- The words a load writes: those of the tokens before the first unparseable one
(40_memory_model_ops.md R86, 70_reset_and_hazards.md R187). -/
def parsedWords : List (List Char) → List Word
  | [] => []
  | t :: ts =>
    match parseToken t with
    | none => []
    | some w => w :: parsedWords ts

/-- `k` steps, stopping at a refusal. -/
def stepN : Nat → State → Host.Outcome State Fault Refusal
  | 0, s => .next s
  | k + 1, s => andThen (step s) (stepN k)

/-! ### What is only diagnostic -/

/-- A state without what no rule reads: the events, and the parameters that only decide about events
or about nothing (10_state.md R13, R30; 43_simulation_driver.md R154). -/
def quiet (s : State) : State :=
  { s with
    mm := { s.mm with littleEndian := false, logStores := false }
    cfg := { s.cfg with threadRunCycle := 0, hbCycles := 0, littleEndian := false, logStores := false, traceEnabled := false }
    diag := { s.diag with events := [] } }

end Sys2Proof.Machine
end

