-- ==== Sys2Proof/Certificates/Slice0/Obligations.lean ====
section
/-! DEFINITION. The statements about the model. A clause that rests on a choice the spec marks as its
own, or on a choice of the model, names the decision D<n> of spec/92_eei_decisions.md or the log
entry. -/

open Sys2Proof Sys2Proof.Machine

/-! ### Encodings -/

/-- No bit of an encoding is dropped: decoding the encoding of any operation gives it back. The packing
is decision D19, its bytes are log entry 1. -/
def Obligations.DecodeOfEncode : Prop :=
  ∀ i : Instr, decode i.format (encode i) = .ok i

/-- Each byte string a format accepts has one meaning: encoding what was decoded gives it back. The packing is
decision D19, its bytes are log entry 1. -/
def Obligations.EncodeOfDecode : Prop :=
  ∀ (f : Format) (bs : List Byte) (i : Instr), decode f bs = .ok i → i.format = f ∧ encode i = bs

/-- 30_encoding.md R64: every word of each format is in exactly one row of the opcode table, and the
decoder gives that row's operation. The packing is decision D19 (log entry 1). -/
def Obligations.EveryWordInExactlyOneRow : Prop :=
  (∀ w : BitVec 71, (reqRows.filter (fun r => r.holds w.toNat)).map TableRow.mnemonic = [(decodeReq w).mnemonic]) ∧
  (∀ w : BitVec 5, (stepRows.filter (fun r => r.holds w.toNat)).map TableRow.mnemonic = [(decodeStep w).mnemonic]) ∧
  (∀ w : BitVec 2, (phaseRows.filter (fun r => r.holds w.toNat)).map TableRow.mnemonic = [(decodePhase w).mnemonic])

/-- Words of spec/95_test_vectors.md (V20 to V28) decode to the operations they stand for.
The packing is decision D19 (log entry 1). -/
def Obligations.VectorWordsDecode : Prop :=
  decode .req (natToBytes 9 0x000000000000000000) = .ok (.nopNoCyc false false 0 0 0) ∧
  decode .req (natToBytes 9 0x5FFFFFFFFFFFFFFFFF) = .ok (.nopNoStb true 0xF 0xFFFFFFFF 0xFFFFFFFF) ∧
  decode .req (natToBytes 9 0x600000010000000000) = .ok (.read 0 0x100 0) ∧
  decode .req (natToBytes 9 0x7F0000010011223344) = .ok (.write 0xF 0x100 0x11223344) ∧
  decode .step (natToBytes 1 0b00101) = .ok (.idleHoldNoStb true) ∧
  decode .step (natToBytes 1 0b00110) = .ok .acceptRead ∧
  decode .step (natToBytes 1 0b00111) = .ok .acceptWrite ∧
  decode .step (natToBytes 1 0b01111) = .ok (.retireRead true true true) ∧
  decode .step (natToBytes 1 0b10000) = .ok (.retireWrite false false false) ∧
  decode .phase (natToBytes 1 0b10) = .ok .ph2

/-! ### Boot -/

/-- BOOT (70_reset_and_hazards.md R185, 10_state.md R32): with any parameters whose image base can be
loaded the machine starts, with these values. Memory holds the image and nothing else (R187): with an
absent image no key is mapped, with an image exactly the keys of its words; an image of at most 2^30
words is read back word by word, every unmapped address reads the default. `S.st`, the counters'
zero, the flags' zero and the draws are the spec's own choices D3, D6, D8, D9, D17 (log entries 9, 20,
22, 24); token grammar and wrap are D15 (log entry 25), a base that is not aligned is D10 (log entries
11, 14). That a phase table outside the 24 of R103 starts too is the model's choice (log entry 31). -/
def Obligations.BootValues : Prop :=
  ∀ (p : Params) (d : Draws), (p.image = none ∨ p.addrMode = .mask ∨ aligned p.imageBase = true) →
    ∃ s, boot p d = .next s ∧
      s.rsp = { st := .idle, capAdr := d.capAdr, capDat := d.capDat, capSel := d.capSel, ack := false, rdata := p.rdataInit } ∧
      s.clk.tick = 0 ∧
      s.run = { cycle := 0, resetLine := true, termDone := false, termOverrun := false } ∧
      s.cfg = p ∧ s.mm.defaultValue = p.defaultValue ∧ s.mm.littleEndian = p.littleEndian ∧
      s.mm.logStores = p.logStores ∧ s.diag.sinkOpen = true ∧ s.diag.finalized = false ∧
      (p.image = none → s.mm.mapped = []) ∧
      (∀ text : List Char, p.image = some text →
        (∀ k : Nat, k ∈ s.mm.mapped ↔
          ∃ i < (parsedWords (tokens text)).length, k = (key (imageAddr p.imageBase i)).toNat) ∧
        ((parsedWords (tokens text)).length ≤ 2 ^ 30 → ∀ (i : Nat) (w : Word),
          (parsedWords (tokens text))[i]? = some w → memRead s (imageAddr p.imageBase i) = w)) ∧
      (∀ a : Word, (key a).toNat ∉ s.mm.mapped → memRead s a = p.defaultValue)

/-- 70_reset_and_hazards.md R187: after a load of at most 2^30 words the memory holds, at consecutive
word addresses from the base, exactly the words before the first unparseable token, and every other
word is as before; the load maps the keys of its words and no other key. Token grammar
(`ImageTokenGrammar`) and wrap are decision D15 (log entry 25), a base that is not aligned is D10 (log entries 11, 14). -/
def Obligations.ImageLoadWritesItsWords : Prop :=
  ∀ (text : List Char) (base : Word) (s : State),
    (s.cfg.addrMode = .mask ∨ aligned base = true) → (parsedWords (tokens text)).length ≤ 2 ^ 30 →
    ∃ t, memLoadImage (some text) base s = .next t ∧
      (∀ (i : Nat) (w : Word), (parsedWords (tokens text))[i]? = some w → memRead t (imageAddr base i) = w) ∧
      (∀ a : Word, (∀ i < (parsedWords (tokens text)).length, key a ≠ key (imageAddr base i)) →
        memRead t a = memRead s a) ∧
      (∀ k : Nat, k ∈ t.mm.mapped ↔
        k ∈ s.mm.mapped ∨ ∃ i < (parsedWords (tokens text)).length, k = (key (imageAddr base i)).toNat)

/-- 40_memory_model_ops.md R87: an absent image loads nothing; a malformed token ends the load there
and the writes before it stay. R80 writes the rule for `ADDR_MODE = mask` only: that with `refuse` and
a base that is not aligned an absent image still loads nothing and is not refused, and that the loop
over the tokens itself masks its addresses, is log entry 14 (DEDUCED; decision D10). -/
def Obligations.LoadErrorsAreSilent : Prop :=
  (∀ (base : Word) (s : State), memLoadImage none base s = .next s) ∧
  (∀ (base : Word) (s : State) (good : List (List Char)) (bad : List Char) (rest : List (List Char)),
    parseToken bad = none → loadTokens base 0 (good ++ bad :: rest) s = loadTokens base 0 good s)

/-! ### Memory operations -/

/-- 40_memory_model_ops.md R82, frame R80: a word write maps its key, reads back there, changes no other word,
maps no other key, logs exactly with `S.logStores`, and touches nothing else. The operation masks its
address (decision D10, log entry 11), with `ADDR_MODE = refuse` too (log entry 14, DEDUCED). -/
def Obligations.WriteWordReplacesItsWord : Prop :=
  ∀ (a w : Word) (s : State),
    (∀ b : Word, memRead (memWriteWord a w s) b = if key b = key a then w else memRead s b) ∧
    (∀ k : Nat, k ∈ (memWriteWord a w s).mm.mapped ↔ k = (key a).toNat ∨ k ∈ s.mm.mapped) ∧
    (memWriteWord a w s).diag.events =
      (if s.mm.logStores then [Event.storeLog (key a) (memRead s a) w] else []) ++ s.diag.events ∧
    (memWriteWord a w s).rsp = s.rsp ∧ (memWriteWord a w s).clk = s.clk ∧ (memWriteWord a w s).run = s.run ∧
    (memWriteWord a w s).cfg = s.cfg ∧ (memWriteWord a w s).env = s.env ∧
    (memWriteWord a w s).mm.defaultValue = s.mm.defaultValue ∧
    (memWriteWord a w s).mm.littleEndian = s.mm.littleEndian ∧
    (memWriteWord a w s).mm.logStores = s.mm.logStores ∧
    (memWriteWord a w s).diag.sinkOpen = s.diag.sinkOpen ∧
    (memWriteWord a w s).diag.finalized = s.diag.finalized

/-- The lane law (40_memory_model_ops.md R84, 20_memory.md R43): every byte the byte-enable selects is
the new word's, every other byte of memory is as before; the full byte-enable is a word write. The
bytes an unmapped key keeps are the default's (decision D21, log entry 26, unsafe); byte numbering is
D11 (log entry 13). The operation masks its address (decision D10, log entry 11), with `ADDR_MODE =
refuse` too (log entry 14, DEDUCED). -/
def Obligations.MaskedWriteLaneByLane : Prop :=
  ∀ (a : Word) (be : LaneSel) (w : Word) (s : State),
    (∀ b : Word, memByte (memWriteMasked a be w s) b =
      if key b = key a ∧ selectsByte be (b.toNat % 4) = true then wordByte w (b.toNat % 4) else memByte s b) ∧
    memWriteMasked a 0xF#4 w s = memWriteWord a w s

/-- 40_memory_model_ops.md R85: byte-enable zero is no read, no log, no mutation; on the bus the write
is still accepted, retired and acknowledged. That the two micro-operations have their effect in
every responder state is log entry 5 (DEDUCED); that the operation itself refuses no address, and
that on the bus a refused address is refused with byte-enable 0 too, which the premise leaves out, is
log entry 14 (DEDUCED; decision D10). -/
def Obligations.ZeroByteEnableChangesNothing : Prop :=
  (∀ (a w : Word) (s : State), memWriteMasked a 0#4 w s = s) ∧
  (∀ s : State, s.env.sampled.sel = 0#4 →
    ∃ t, exec .acceptWrite s = .next t ∧ t.rsp.st = .writePending ∧ t.rsp.capSel = 0#4 ∧ t.mm = s.mm) ∧
  (∀ (cyc stb we : Bool) (s : State), s.rsp.capSel = 0#4 → (s.cfg.addrMode = .mask ∨ aligned s.rsp.capAdr = true) →
    ∃ t, exec (.retireWrite cyc stb we) s = .next t ∧ t.mm = s.mm ∧ t.diag = s.diag ∧
      t.rsp.ack = true ∧ t.rsp.st = .idle)

/-! ### Micro-operations -/

/-- 42_bus_responder.md R117: `IDLE_HOLD` clears acknowledge and changes nothing else. The rule
speaks of a responder that is `Idle`; the other states are log entry 5 (DEDUCED). -/
def Obligations.IdleHoldClearsAcknowledge : Prop :=
  ∀ (stb we : Bool) (s : State),
    exec (.idleHoldNoCyc stb we) s = .next { s with rsp := { s.rsp with ack := false } } ∧
    exec (.idleHoldNoStb we) s = .next { s with rsp := { s.rsp with ack := false } }

/-- 42_bus_responder.md R118: `ACCEPT_READ` captures the address. That `S.cap_dat` and `S.cap_sel` keep
their values is decision D23 (log entry 22). The rule speaks from `Idle`; the other states are log
entry 5 (DEDUCED). -/
def Obligations.AcceptReadCaptures : Prop :=
  ∀ s : State,
    exec .acceptRead s =
      .next { s with rsp := { s.rsp with capAdr := s.env.sampled.adr, st := .readPending, ack := false } }

/-- 42_bus_responder.md R119: `ACCEPT_WRITE` captures address, data and byte-enable; memory and read
data stay. The rule speaks of acceptance from `Idle`; the other states are log entry 5 (DEDUCED). -/
def Obligations.AcceptWriteCaptures : Prop :=
  ∀ s : State,
    exec .acceptWrite s =
      .next { s with
        rsp := { s.rsp with
          capAdr := s.env.sampled.adr, capDat := s.env.sampled.wdata, capSel := s.env.sampled.sel
          st := .writePending, ack := false } }

/-- 42_bus_responder.md R120: `RETIRE_READ` drives the captured address's word, acknowledges, returns
to `Idle`, whatever the lines are; nothing else changes. The rule speaks from `ReadPending`; the other
states are log entry 5 (DEDUCED). The premise leaves out only the access that
20_memory.md R46 refuses (decision D10; log entry 14, DEDUCED), see `UnalignedRetireRefused`. -/
def Obligations.RetireReadDrivesTheWord : Prop :=
  ∀ (cyc stb we : Bool) (s : State), (s.cfg.addrMode = .mask ∨ aligned s.rsp.capAdr = true) →
    exec (.retireRead cyc stb we) s =
      .next { s with rsp := { s.rsp with rdata := memRead s s.rsp.capAdr, ack := true, st := .idle } }

/-- 42_bus_responder.md R121, 40_memory_model_ops.md R84: `RETIRE_WRITE` performs the captured masked
write, acknowledges, returns to `Idle`. The lanes not selected keep their bytes; that those of an
unmapped key are the default's is decision D21 (log entry 26, unsafe). That `S.rdata` stays is decision
D28 (log entry 22); byte numbering is D11 (log entry 13). The rule speaks from `WritePending`; the
other states are log entry 5 (DEDUCED). -/
def Obligations.RetireWriteStoresTheLanes : Prop :=
  ∀ (cyc stb we : Bool) (s : State), (s.cfg.addrMode = .mask ∨ aligned s.rsp.capAdr = true) →
    ∃ t, exec (.retireWrite cyc stb we) s = .next t ∧
      t.rsp = { s.rsp with ack := true, st := .idle } ∧
      (∀ a : Word, memByte t a =
        if key a = key s.rsp.capAdr ∧ selectsByte s.rsp.capSel (a.toNat % 4) = true
        then wordByte s.rsp.capDat (a.toNat % 4) else memByte s a) ∧
      t.clk = s.clk ∧ t.run = s.run ∧ t.cfg = s.cfg ∧ t.env = s.env

/-- 20_memory.md R46, `ADDR_MODE = refuse` (decision D10, log entry 14): a retire whose captured address is not aligned is refused
by name, in any responder state (log entry 5, DEDUCED). -/
def Obligations.UnalignedRetireRefused : Prop :=
  ∀ (cyc stb we : Bool) (s : State), s.cfg.addrMode = .refuse → aligned s.rsp.capAdr = false →
    exec (.retireRead cyc stb we) s = .refused .unalignedAddress ∧
    exec (.retireWrite cyc stb we) s = .refused .unalignedAddress

/-- 42_bus_responder.md R125: the dispatch word with state bits `11` is given no step, and no state
selects it. -/
def Obligations.ReservedStateHasNoStep : Prop :=
  ∀ (cyc stb we : Bool) (s : State),
    exec (.reservedSt3 cyc stb we) s = .refused .reservedState ∧ stepInstr s ≠ .reservedSt3 cyc stb we

/-- 42_bus_responder.md R126, the complete transition table: which micro-operation a boundary selects,
the state after it and acknowledge after it. The premise of the retire rows leaves out only the
access that 20_memory.md R46 refuses (decision D10; log entry 14, DEDUCED), see
`UnalignedRetireRefused`; R126 itself says that these rows hold always. -/
def Obligations.TransitionTableOfTheResponder : Prop :=
  ∀ s : State,
    (s.rsp.st = .idle → isRequest s.env.sampled = false →
      (stepInstr s).mnemonic = "IDLE_HOLD" ∧
      ∃ t, exec (stepInstr s) s = .next t ∧ t.rsp.st = .idle ∧ t.rsp.ack = false) ∧
    (s.rsp.st = .idle → isRequest s.env.sampled = true → s.env.sampled.we = false →
      (stepInstr s).mnemonic = "ACCEPT_READ" ∧
      ∃ t, exec (stepInstr s) s = .next t ∧ t.rsp.st = .readPending ∧ t.rsp.ack = false) ∧
    (s.rsp.st = .idle → isRequest s.env.sampled = true → s.env.sampled.we = true →
      (stepInstr s).mnemonic = "ACCEPT_WRITE" ∧
      ∃ t, exec (stepInstr s) s = .next t ∧ t.rsp.st = .writePending ∧ t.rsp.ack = false) ∧
    (s.rsp.st = .readPending → (s.cfg.addrMode = .mask ∨ aligned s.rsp.capAdr = true) →
      (stepInstr s).mnemonic = "RETIRE_READ" ∧
      ∃ t, exec (stepInstr s) s = .next t ∧ t.rsp.st = .idle ∧ t.rsp.ack = true) ∧
    (s.rsp.st = .writePending → (s.cfg.addrMode = .mask ∨ aligned s.rsp.capAdr = true) →
      (stepInstr s).mnemonic = "RETIRE_WRITE" ∧
      ∃ t, exec (stepInstr s) s = .next t ∧ t.rsp.st = .idle ∧ t.rsp.ack = true)

/-- The two formats agree (30_encoding.md R61, R63; 42_bus_responder.md R116): at a boundary the bus
command the lines spell has the effect of the micro-operation that state and lines select. That this
is so in a pending state too, where R116 reads no line, is log entry 4 (DEDUCED); that the lines stand
in a record in State, which the command writes with `done` kept, is log entry 8 (the model's choice). -/
def Obligations.CommandIsItsMicroOperation : Prop :=
  ∀ s : State, exec (lineInstr s) s = exec (stepInstr s) s

/-- What each register of the responder is after any operation, by the micro-operation it amounts to
(42_bus_responder.md R117 to R121, 10_state.md R16, R19). The held values of captures and read data
are decisions D9, D23, D28 (log entry 22); a micro-operation in a state that does not select it is log
entry 5, a bus command is log entry 4 (both DEDUCED); the record of lines is log entry 8. -/
def Obligations.ResponderRegisterWriters : Prop :=
  ∀ (i : Instr) (s t : State), exec i s = .next t →
    t.rsp.capAdr = (if acceptsRead i s || acceptsWrite i s then t.env.sampled.adr else s.rsp.capAdr) ∧
    t.rsp.capDat = (if acceptsWrite i s then t.env.sampled.wdata else s.rsp.capDat) ∧
    t.rsp.capSel = (if acceptsWrite i s then t.env.sampled.sel else s.rsp.capSel) ∧
    t.rsp.rdata = (if retiresRead i s then memRead s s.rsp.capAdr else s.rsp.rdata) ∧
    t.rsp.ack = (if i.format = .phase then s.rsp.ack else retiresRead i s || retiresWrite i s) ∧
    t.rsp.st =
      (if acceptsRead i s then .readPending else if acceptsWrite i s then .writePending
       else if retiresRead i s || retiresWrite i s then .idle else s.rsp.st)

/-! ### Bus commands -/

/-- 42_bus_responder.md R124: in `Idle` a `NOP` of either row clears acknowledge, captures nothing and
touches no memory. That one execution presents its lines at one boundary is log entry 4 (DEDUCED);
that the lines stand in a record in State, which the command writes with `done` kept, is log entry 8
(the model's choice). -/
def Obligations.NopInIdleHolds : Prop :=
  ∀ (stb we : Bool) (sel : LaneSel) (adr wdata : Word) (s : State), s.rsp.st = .idle →
    exec (.nopNoCyc stb we sel adr wdata) s =
      .next { presentReq false stb we sel adr wdata s with rsp := { s.rsp with ack := false } } ∧
    exec (.nopNoStb we sel adr wdata) s =
      .next { presentReq true false we sel adr wdata s with rsp := { s.rsp with ack := false } }

/-- 42_bus_responder.md R122: a `READ` in `Idle` is accepted without acknowledge; at the next boundary,
whatever command is on the lines, the word at its address is driven with acknowledge; at the one
after, acknowledge is 0. Memory is unchanged throughout. One command an execution is log entry 4
(DEDUCED), the held captures are D23 (log entry 22), the premise on the address D10 (log entry 14). -/
def Obligations.ReadTransaction : Prop :=
  ∀ (sel : LaneSel) (adr wdata : Word) (s : State), s.rsp.st = .idle →
    (s.cfg.addrMode = .mask ∨ aligned adr = true) →
    ∃ t, exec (.read sel adr wdata) s = .next t ∧
      t.rsp = { s.rsp with capAdr := adr, st := .readPending, ack := false } ∧ t.mm = s.mm ∧
      ∀ j : Instr, j.format = .req →
        ∃ u, exec j t = .next u ∧
          u.rsp = { t.rsp with rdata := memRead s adr, ack := true, st := .idle } ∧ u.mm = s.mm ∧
          ∀ k : Instr, k.format = .req → ∃ v, exec k u = .next v ∧ v.rsp.ack = false ∧ v.mm = s.mm

/-- 42_bus_responder.md R123: a `WRITE` in `Idle` is captured without acknowledge and without a change
of memory; at the next boundary, whatever command is on the lines, its lanes are stored with
acknowledge; at the one after, acknowledge is 0. One command an execution is log entry 4 (DEDUCED), read data
holds by D28 (log entry 22), an unmapped word's other lanes are D21 (log entry 26), the premise on the
address is D10 (log entry 14). -/
def Obligations.WriteTransaction : Prop :=
  ∀ (sel : LaneSel) (adr wdata : Word) (s : State), s.rsp.st = .idle →
    (s.cfg.addrMode = .mask ∨ aligned adr = true) →
    ∃ t, exec (.write sel adr wdata) s = .next t ∧
      t.rsp = { s.rsp with capAdr := adr, capDat := wdata, capSel := sel, st := .writePending, ack := false } ∧
      t.mm = s.mm ∧
      ∀ j : Instr, j.format = .req →
        ∃ u, exec j t = .next u ∧ u.rsp = { t.rsp with ack := true, st := .idle } ∧
          (∀ a : Word, memRead u a = if key a = key adr then mergeLanes sel (memRead s adr) wdata else memRead s a) ∧
          ∀ k : Instr, k.format = .req →
            ∃ v, exec k u = .next v ∧ v.rsp.ack = false ∧ v.mm = u.mm

/-- 20_memory.md R52(a): a `READ` accepted after a `WRITE` to the same key was acknowledged returns the
written lanes over the word before. That the four commands are the lines at four successive boundaries
(accept, retire, accept, retire) is log entry 4 (DEDUCED). The lanes not written of an unmapped key
are the default's by decision D21 (log entry 26, unsafe). Keys are of masked addresses, decision D10
(log entry 11). The `READ` is accepted at the first boundary after the acknowledge; for a later one
see `OnlyRetiringWritesStore`. -/
def Obligations.ReadAfterWriteReturnsTheLanes : Prop :=
  ∀ (sel sel' : LaneSel) (adr adr' wdata wdata' : Word) (j k : Instr) (s t u v x : State),
    s.rsp.st = .idle → key adr' = key adr → j.format = .req → k.format = .req →
    exec (.write sel adr wdata) s = .next t → exec j t = .next u →
    exec (.read sel' adr' wdata') u = .next v → exec k v = .next x →
    x.rsp.ack = true ∧ x.rsp.rdata = mergeLanes sel (memRead s adr) wdata

/-- 42_bus_responder.md R127, R116, R126: while a transaction is pending the command on the lines is not
sampled; if it is gone at the next boundary it was never seen, and a request held until then is
accepted. That a command executed in a pending state is the retire of the pending transaction is log
entry 4 (DEDUCED): 30_encoding.md R61 gives a REQ value that is not sampled no meaning. -/
def Obligations.PendingDefersRequests : Prop :=
  ∀ (i : Instr) (s t : State), i.format = .req → s.rsp.st ≠ .idle → exec i s = .next t →
    t.rsp.st = .idle ∧ t.rsp.ack = true ∧
    t.rsp.capAdr = s.rsp.capAdr ∧ t.rsp.capDat = s.rsp.capDat ∧ t.rsp.capSel = s.rsp.capSel ∧
    (∀ (j : Instr) (t' : State), j.format = .req → exec j s = .next t' → t'.rsp = t.rsp ∧ t'.mm = t.mm) ∧
    (∀ (sel : LaneSel) (adr wdata : Word), i = .read sel adr wdata →
      ∃ u, exec i t = .next u ∧ u.rsp.st = .readPending ∧ u.rsp.capAdr = adr) ∧
    (∀ (sel : LaneSel) (adr wdata : Word), i = .write sel adr wdata →
      ∃ u, exec i t = .next u ∧ u.rsp.st = .writePending ∧ u.rsp.capAdr = adr ∧ u.rsp.capDat = wdata ∧ u.rsp.capSel = sel)

/-! ### Phases -/

/-- 41_clock_phase_generator.md R106 to R109: a phase drives the clock bits of its table entry and
changes nothing else; with the default table of decision D4 (log entry 11) the bits are 11, 10, 01,
00. That a phase drives the entry of the configured table, and that it does not count the tick, is
log entry 6 (DEDUCED); that it does so with a table outside the 24 of R103 is the model's choice (log
entry 31). -/
def Obligations.PhasesDriveTheTable : Prop :=
  (∀ s : State,
    exec .ph0 s = .next { s with clk := { s.clk with clk1x := s.cfg.phaseTable.entry0.clk1x, clk2x := s.cfg.phaseTable.entry0.clk2x } } ∧
    exec .ph1 s = .next { s with clk := { s.clk with clk1x := s.cfg.phaseTable.entry1.clk1x, clk2x := s.cfg.phaseTable.entry1.clk2x } } ∧
    exec .ph2 s = .next { s with clk := { s.clk with clk1x := s.cfg.phaseTable.entry2.clk1x, clk2x := s.cfg.phaseTable.entry2.clk2x } } ∧
    exec .ph3 s = .next { s with clk := { s.clk with clk1x := s.cfg.phaseTable.entry3.clk1x, clk2x := s.cfg.phaseTable.entry3.clk2x } }) ∧
  (∀ s : State, s.cfg.phaseTable = Config.defaultPhaseTable →
    exec .ph0 s = .next { s with clk := { s.clk with clk1x := true, clk2x := true } } ∧
    exec .ph1 s = .next { s with clk := { s.clk with clk1x := true, clk2x := false } } ∧
    exec .ph2 s = .next { s with clk := { s.clk with clk1x := false, clk2x := true } } ∧
    exec .ph3 s = .next { s with clk := { s.clk with clk1x := false, clk2x := false } })

/-! ### Frames over all operations -/

/-- Memory after any operation, byte by byte: only a retiring write stores, and only to the bytes its
captured byte-enable selects at its captured address (20_memory.md R41, 40_memory_model_ops.md R84,
42_bus_responder.md R121). That the bytes of an unmapped key which are not selected keep reading as
the default's is decision D21 (log entry 26, unsafe); byte numbering is D11 (log entry 13). That a bus
command executed while a write is pending retires it is log entry 4, a micro-operation in a state that
does not select it is log entry 5 (both DEDUCED). -/
def Obligations.OnlyRetiringWritesStore : Prop :=
  ∀ (i : Instr) (s t : State), exec i s = .next t →
    ∀ a : Word, memByte t a =
      if retiresWrite i s && storesTo s.rsp.capAdr s.rsp.capSel a then wordByte s.rsp.capDat (a.toNat % 4)
      else memByte s a

/-- The domain of the map after any operation. A retiring write with a non-zero byte-enable maps its key:
40_memory_model_ops.md R84 with decision D21 (log entry 26, unsafe). With byte-enable zero it maps
none: R85. Nothing else is mapped and nothing is removed: 10_state.md R11, R14, 20_memory.md R41. That
a bus command executed while a write is pending retires it is log entry 4, a micro-operation in a state
that does not select it is log entry 5 (both DEDUCED). -/
def Obligations.OnlyRetiringWritesMap : Prop :=
  ∀ (i : Instr) (s t : State), exec i s = .next t →
    ∀ k : Nat, k ∈ t.mm.mapped ↔
      k ∈ s.mm.mapped ∨ (retiresWrite i s = true ∧ s.rsp.capSel ≠ 0#4 ∧ k = (key s.rsp.capAdr).toNat)

/-- What no bus command and no micro-operation changes: clocks, run state, configuration, attributes,
sink, and the model's record of the device (log entry 8, the model's choice) but for the lines a command
presents (log entry 4). In responder states that do not select the operation it is log entry 5 (both
DEDUCED). -/
def Obligations.BusOperationsLeaveTheRest : Prop :=
  ∀ (i : Instr) (s t : State), i.format ≠ .phase → exec i s = .next t →
    t.clk = s.clk ∧ t.run = s.run ∧ t.cfg = s.cfg ∧
    t.mm.defaultValue = s.mm.defaultValue ∧ t.mm.littleEndian = s.mm.littleEndian ∧ t.mm.logStores = s.mm.logStores ∧
    t.diag.sinkOpen = s.diag.sinkOpen ∧ t.diag.finalized = s.diag.finalized ∧
    t.env.script = s.env.script ∧ t.env.dutState = s.env.dutState ∧
    (i.format = .step → t.env = s.env)

/-- The configuration is read-only and the attributes are constant, in every operation and every step
(10_state.md R12, R13, R26). -/
def Obligations.ConfigurationIsReadOnly : Prop :=
  (∀ (i : Instr) (s t : State), exec i s = .next t → t.cfg = s.cfg ∧ t.mm.defaultValue = s.mm.defaultValue ∧
    t.mm.littleEndian = s.mm.littleEndian ∧ t.mm.logStores = s.mm.logStores) ∧
  (∀ s t : State, step s = .next t → t.cfg = s.cfg ∧ t.mm.defaultValue = s.mm.defaultValue ∧
    t.mm.littleEndian = s.mm.littleEndian ∧ t.mm.logStores = s.mm.logStores)

/-! ### Steps -/

/-- 43_simulation_driver.md R141: a step of a run that has not terminated runs the phase that the
advanced counter's index decodes to, evaluates the device, on a boundary runs the micro-operation
that the dispatch word decodes to and then reset rule, counter and heartbeat, and ends with trace
and termination test. That the tick is counted before the phase, which itself counts nothing, is log
entry 6 (DEDUCED). The last clause, that the bus command the lines decode to has the micro-operation's
outcome, also while a transaction is pending, is log entry 4 (DEDUCED), over the record of lines of log
entry 8 (the model's choice). First counts, boundary,
comparison and flags are decisions D3, D5, D7, D17, D18 (log entries 11, 18, 20, 21, 24). -/
def Obligations.StepRunsTheDecodedOperations : Prop :=
  ∀ (s s1 : State) (ip im ic : Instr), terminated s = false →
    decode .phase (natToBytes 1 ((s.clk.tick + 1) % 4)) = .ok ip →
    exec ip (countTick s) = .next s1 →
    decode .step (natToBytes 1 (stepWord (evaluateDevice s1)).toNat) = .ok im →
    decode .req (natToBytes 9 (lineWord (evaluateDevice s1)).toNat) = .ok ic →
    (nextIsBoundary s = false → step s = .next (testTermination (traceTick (evaluateDevice s1)))) ∧
    (nextIsBoundary s = true →
      step s = andThen (exec im (evaluateDevice s1))
        (fun s3 => .next (testTermination (traceTick (heartbeat (countCycle (applyReset s3))))))) ∧
    exec ic (evaluateDevice s1) = exec im (evaluateDevice s1)

/-- When a step answers a next state: always, but for the retire of an address that is not aligned
with `ADDR_MODE = refuse` (20_memory.md R46, decision D10, log entry 14; 60_exceptions.md R165: nothing
traps). -/
def Obligations.StepStopsOnlyOnRefusedAddresses : Prop :=
  ∀ s : State,
    (¬ (terminated s = false ∧ nextIsBoundary s = true ∧ s.rsp.st ≠ .idle ∧ s.cfg.addrMode = .refuse ∧
        aligned s.rsp.capAdr = false) → ∃ t, step s = .next t) ∧
    (terminated s = false → nextIsBoundary s = true → s.rsp.st ≠ .idle → s.cfg.addrMode = .refuse →
      aligned s.rsp.capAdr = false → step s = .refused .unalignedAddress)

/-- 43_simulation_driver.md R141, corner case: a tick that is no boundary changes only the tick
counter, the clock bits, the termination flags, the events and the record of the device. -/
def Obligations.BetweenBoundariesNothingMoves : Prop :=
  ∀ s t : State, terminated s = false → nextIsBoundary s = false → step s = .next t →
    t.mm = s.mm ∧ t.rsp = s.rsp ∧ t.cfg = s.cfg ∧ t.clk.tick = s.clk.tick + 1 ∧
    t.run.cycle = s.run.cycle ∧ t.run.resetLine = s.run.resetLine ∧
    t.diag.sinkOpen = s.diag.sinkOpen ∧ t.diag.finalized = s.diag.finalized

/-- 41_clock_phase_generator.md R102: the clock bits the device's `evaluate` sees in a tick, which are
those the tick leaves, are the table's at the tick count modulo 4, and those of four ticks later are
the same. R103 restricts the table to 24; that one outside them is driven too is the model's choice (log
entry 31). -/
def Obligations.ClockBitsAreAFunctionOfTheIndex : Prop :=
  ∀ s s1 t : State, terminated s = false → clockStep s = .next s1 → step s = .next t →
    s1.clk.tick = s.clk.tick + 1 ∧ t.clk = s1.clk ∧
    (driven s1).clk1x = (tableEntry s.cfg.phaseTable (s1.clk.tick % 4)).clk1x ∧
    (driven s1).clk2x = (tableEntry s.cfg.phaseTable (s1.clk.tick % 4)).clk2x ∧
    (∀ u u1 : State, u.cfg.phaseTable = s.cfg.phaseTable → u.clk.tick = s.clk.tick + 4 → clockStep u = .next u1 →
      (driven u1).clk1x = (driven s1).clk1x ∧ (driven u1).clk2x = (driven s1).clk2x)

/-- The law of the two clocks (41_clock_phase_generator.md R104), for every legal table: over four
consecutive ticks the 2x clock changes 4 times and the 1x clock twice, each 1x change on a 2x
change. -/
def Obligations.TwoToOneClockRatio : Prop :=
  ∀ s t u v w : State, s.cfg.phaseTable.legal = true → ClockInv s → 0 < s.clk.tick →
    terminated s = false → terminated t = false → terminated u = false → terminated v = false →
    step s = .next t → step t = .next u → step u = .next v → step v = .next w →
    (s.clk.clk2x ^^ t.clk.clk2x) = true ∧ (t.clk.clk2x ^^ u.clk.clk2x) = true ∧
    (u.clk.clk2x ^^ v.clk.clk2x) = true ∧ (v.clk.clk2x ^^ w.clk.clk2x) = true ∧
    (s.clk.clk1x ^^ t.clk.clk1x).toNat + (t.clk.clk1x ^^ u.clk.clk1x).toNat +
      (u.clk.clk1x ^^ v.clk.clk1x).toNat + (v.clk.clk1x ^^ w.clk.clk1x).toNat = 2

/-- 43_simulation_driver.md R148: the bus-cycle counter advances by 1 at every boundary, reset or not,
request or not, and nothing else writes it. -/
def Obligations.CounterAdvancesAtBoundariesOnly : Prop :=
  (∀ (i : Instr) (s t : State), exec i s = .next t → t.run.cycle = s.run.cycle) ∧
  (∀ s t : State, step s = .next t →
    t.run.cycle = if terminated s = false ∧ nextIsBoundary s = true then s.run.cycle + 1 else s.run.cycle)

/-- The reset line (43_simulation_driver.md R147, comparison: decision D7, log entry 21): at a
boundary it falls once the counter before its advance has reached the reset length; nothing sets
it. -/
def Obligations.ResetLineFallsOnce : Prop :=
  (∀ (i : Instr) (s t : State), exec i s = .next t → t.run.resetLine = s.run.resetLine) ∧
  (∀ s t : State, step s = .next t →
    t.run.resetLine =
      if terminated s = false ∧ nextIsBoundary s = true ∧ s.cfg.resetCycle ≤ s.run.cycle then false
      else s.run.resetLine)

/-- 43_simulation_driver.md R144: the device's `done` line is read on every tick, boundary or not; it is
recorded in the flag of decision D17 (log entry 24), and a queued record of lines is what the device
returns (decision D24; the model's choice, log entries 7, 8). -/
def Obligations.DoneIsReadEveryTick : Prop :=
  ∀ s t : State, terminated s = false → step s = .next t →
    t.run.termDone = t.env.sampled.done ∧
    (∀ (o : Lines) (rest : List Lines), s.env.script = o :: rest → t.env.sampled = o ∧ t.env.script = rest)

/-- The overrun flag (43_simulation_driver.md R150, two flags: decision D17, log entry 24): after a
tick it is 1 exactly if the advanced counter exceeds the run length, and it never falls. -/
def Obligations.OverrunIsTestedEveryTick : Prop :=
  ∀ s t : State, step s = .next t →
    (terminated s = false → t.run.termOverrun = decide (s.cfg.runCycles < t.run.cycle)) ∧
    (s.run.termOverrun = true → t.run.termOverrun = true) ∧
    (s.run.termDone = true → t.run.termDone = true)

/-- After the end of a run (43_simulation_driver.md R151, R152; decision D26, log entry 15): the first
step closes the trace sink and finalizes the device, no state of the hardware changes, a pending
transaction is never retired; later steps change nothing. -/
def Obligations.NothingRunsAfterTheEnd : Prop :=
  ∀ s : State, terminated s = true →
    ∃ t, step s = .next t ∧ t.mm = s.mm ∧ t.rsp = s.rsp ∧ t.clk = s.clk ∧ t.run = s.run ∧ t.cfg = s.cfg ∧
      t.env = s.env ∧ t.diag.events = s.diag.events ∧
      (s.diag.finalized = false → t.diag.sinkOpen = false) ∧ t.diag.finalized = true ∧ step t = .next t

/-- 10_state.md R28, 43_simulation_driver.md R142: the device's `evaluate` in a tick is given the clock
bits of that tick and the reset, read-data and acknowledge values the tick before left. That the
device is a function with a hidden state, and that its lines stand in a record, is the model's choice
(decision D24; log entries 7, 8). -/
def Obligations.DeviceSeesTheOutputsOfTheTickBefore : Prop :=
  ∀ s t : State, terminated s = false → s.env.script = [] → step s = .next t →
    (t.env.dutState, t.env.sampled) =
      Config.evaluate s.env.dutState
        { clk1x := t.clk.clk1x, clk2x := t.clk.clk2x, reset := s.run.resetLine, rdata := s.rsp.rdata, ack := s.rsp.ack }

/-- The events of one tick, newest first (40_memory_model_ops.md R83, 60_exceptions.md R178, R179; the
log of a masked write and the heartbeat's condition are decisions D25 and D18, log entry 18). The new
word logged for an unmapped key has the default's bytes in the lanes not selected by decision D21 (log
entry 26, unsafe). -/
def Obligations.EventsOfATick : Prop :=
  ∀ s t : State, terminated s = false → step s = .next t →
    t.diag.events =
      (if s.cfg.traceEnabled then [Event.trace (s.clk.tick + 1)] else []) ++
      (if nextIsBoundary s && heartbeatDue (s.run.cycle + 1) s.cfg.hbCycles then [Event.heartbeat (s.run.cycle + 1)] else []) ++
      (if nextIsBoundary s && s.rsp.st == .writePending && s.mm.logStores && s.rsp.capSel != 0#4 then
        [Event.storeLog (key s.rsp.capAdr) (memRead s s.rsp.capAdr)
          (mergeLanes s.rsp.capSel (memRead s s.rsp.capAdr) s.rsp.capDat)] else []) ++
      s.diag.events

/-- The responder is not gated by the reset line (42_bus_responder.md R130, decision D13, log entry
23; 43_simulation_driver.md R149): with the same lines from the device, a tick from a state with
the other value of the line differs in that line alone. -/
def Obligations.ResetLineGatesNothing : Prop :=
  ∀ (s t : State) (b : Bool) (o : Lines) (rest : List Lines), s.env.script = o :: rest → step s = .next t →
    ∃ t', step { s with run := { s.run with resetLine := b } } = .next t' ∧
      t'.mm = t.mm ∧ t'.rsp = t.rsp ∧ t'.clk = t.clk ∧ t'.cfg = t.cfg ∧ t'.diag = t.diag ∧ t'.env = t.env ∧
      t'.run.cycle = t.run.cycle ∧ t'.run.termDone = t.run.termDone ∧ t'.run.termOverrun = t.run.termOverrun

/-- The model's choice, log entry 16: a placed word is what the next step selects: `withFetchWord` with the encoding of
any well-formed operation makes the next tick decode to it. The bytes of a word and the format of a
number are log entries 1 and 2, the record of lines is log entry 8. -/
def Obligations.PlacedWordIsSelectedNext : Prop :=
  ∀ (s s1 : State) (i : Instr), i.wellFormed = true →
    clockStep (s.withFetchWord i.format.width (encodeBits i)) = .next s1 →
    terminated (s.withFetchWord i.format.width (encodeBits i)) = false ∧
    (i.format = .phase → phaseInstr (countTick (s.withFetchWord i.format.width (encodeBits i))) = i) ∧
    (i.format = .step → isBoundary s1 = true ∧ stepInstr (evaluateDevice s1) = i) ∧
    (i.format = .req → isBoundary s1 = true ∧ (evaluateDevice s1).rsp.st = .idle ∧ lineInstr (evaluateDevice s1) = i)

/-! ### Whole runs -/

/-- The invariant of a run holds after boot with any parameters. The counters' start is decisions D3
and D6 (log entry 20). That the parameters may have a phase table outside the 24 of R103 is the model's
choice (log entry 31). -/
def Obligations.InvariantAfterBoot : Prop :=
  ∀ (p : Params) (d : Draws) (s : State), boot p d = .next s → Inv s

/-- The invariant holds in the reset state (log entries 9 to 12, 20). -/
def Obligations.InvariantAtReset : Prop := Inv State.reset

/-- Every step keeps the invariant: memory canonical, attributes, counters, reset line, overrun flag,
clock bits, acknowledge, closing. Its counter clauses rest on decisions D3, D5, D6, D7, D17 (log
entries 11, 20, 21, 24), its closing clause on D26 (log entry 15). A phase table outside the 24 of R103 is
log entry 31 (the model's choice). -/
def Obligations.StepKeepsTheInvariant : Prop :=
  ∀ s t : State, Inv s → step s = .next t → Inv t

/-- What is only diagnostic decides nothing (10_state.md R13, R30; 43_simulation_driver.md R154): two
states that differ only there step to states that differ only there. -/
def Obligations.DiagnosticsDecideNothing : Prop :=
  ∀ s u t : State, quiet s = quiet u → step s = .next t → ∃ v, step u = .next v ∧ quiet t = quiet v

/-- An isolated read (95_test_vectors.md S6; 42_bus_responder.md R122, R128): a read on the lines at
one boundary only gives acknowledge on exactly the four ticks that begin one bus cycle later, never
earlier, never twice, with the word memory holds. That read data keeps this word on the ticks after
acknowledge falls is decision D9 (10_state.md R19; log entry 22, DESIGN CHOICE, unsafe). The lines at
the retire boundary and between boundaries are arbitrary, the queued lines being log entry 7.
Addresses are masked, D10 (log entry 11); the value of the reset line is arbitrary, D13 (log entry 23). -/
def Obligations.IsolatedReadAcknowledgedOnce : Prop :=
  ∀ (s : State) (r a1 a2 a3 b b1 b2 b3 c c1 c2 c3 : Lines) (rest : List Lines),
    terminated s = false → s.cfg.addrMode = .mask → s.rsp.st = .idle → nextIsBoundary s = true →
    s.env.script = [r, a1, a2, a3, b, b1, b2, b3, c, c1, c2, c3] ++ rest →
    (∀ o ∈ [r, a1, a2, a3, b, b1, b2, b3, c, c1, c2, c3], o.done = false) →
    isRequest r = true → r.we = false → isRequest c = false → s.run.cycle + 3 ≤ s.cfg.runCycles →
    ∀ k : Nat, 1 ≤ k → k ≤ 12 →
      ∃ t, stepN k s = .next t ∧ t.rsp.ack = decide (5 ≤ k ∧ k ≤ 8) ∧
        (5 ≤ k → t.rsp.rdata = memRead s r.adr) ∧ t.mm = s.mm

/-- No request is lost for a master that holds it (70_reset_and_hazards.md R190, R191;
42_bus_responder.md R127): a request on the lines at three boundaries in a row is acknowledged one
bus cycle after the first boundary at which the responder is `Idle`, that is after the second
boundary from `Idle` and after the third from a pending state; its lanes are then in memory, or its
word on read data. The lines between boundaries are arbitrary, the queued lines being log entry 7.
Addresses are masked, D10 (log entry 11); the value of the reset line is arbitrary, D13 (log entry 23). -/
def Obligations.HeldRequestIsServed : Prop :=
  ∀ (s : State) (r a1 a2 a3 b b1 b2 b3 c : Lines) (rest : List Lines),
    terminated s = false → s.cfg.addrMode = .mask → nextIsBoundary s = true →
    s.env.script = [r, a1, a2, a3, b, b1, b2, b3, c] ++ rest →
    (∀ o ∈ [r, a1, a2, a3, b, b1, b2, b3, c], o.done = false) →
    isRequest r = true → sameRequest r b = true → sameRequest r c = true → s.run.cycle + 2 ≤ s.cfg.runCycles →
    ∃ t, stepN (if s.rsp.st = .idle then 5 else 9) s = .next t ∧
      t.rsp.ack = true ∧ t.rsp.st = .idle ∧ t.rsp.capAdr = r.adr ∧
      (r.we = false → t.rsp.rdata = memRead t r.adr) ∧
      (r.we = true → ∀ i < 4, selectsByte r.sel i = true → wordByte (memRead t r.adr) i = wordByte r.wdata i)

/-- A run without completion signal (43_simulation_driver.md R151; 95_test_vectors.md S8): booted with
run length `N` and lines that never request completion, it terminates at its boundary `N`, with the
counter at `N+1`: after exactly `4*(N+1)` ticks with boundary index 0, and up to 3 ticks less with
another index. With `ADDR_MODE = refuse` (decision D10) the lines' addresses are aligned. The tick
count rests on decisions D3, D5, D6 (log entries 11, 20), the queued lines on log entry 7. -/
def Obligations.RunWithoutCompletionEndsAtItsLength : Prop :=
  ∀ (p : Params) (d : Draws) (s : State) (lines : List Lines),
    boot p d = .next s → (p.addrMode = .mask ∨ ∀ o ∈ lines, aligned o.adr = true) →
    lines.length = 4 * (p.runCycles + 1) - (4 - p.boundaryIndex.val) % 4 → (∀ o ∈ lines, o.done = false) →
    (∀ k : Nat, k < lines.length →
      ∃ t, stepN k { s with env := { s.env with script := lines } } = .next t ∧ terminated t = false) ∧
    ∃ t, stepN lines.length { s with env := { s.env with script := lines } } = .next t ∧
      t.clk.tick = lines.length ∧ t.run.cycle = p.runCycles + 1 ∧
      t.run.termOverrun = true ∧ t.run.termDone = false

/-- Every run ends (43_simulation_driver.md R151): with addresses masked, from any state that meets
the invariant and whatever the device does, a termination flag is 1 within `4*(RUN_CYCLES+1)`
ticks. The bound rests on decisions D3, D5, D6 (log entries 11, 20), the masked addresses are D10 (log
entry 11), the device is D24 (log entry 7). -/
def Obligations.EveryRunEnds : Prop :=
  ∀ s : State, Inv s → s.cfg.addrMode = .mask →
    ∃ (k : Nat) (t : State), k ≤ 4 * (s.cfg.runCycles + 1) ∧ stepN k s = .next t ∧ terminated t = true

/-! ### Reads of unmapped words, and image text -/

/-- A read never fails and reads the default where its key is not mapped (40_memory_model_ops.md R81,
R88(a), the source's property S1); it depends on the key alone, address bits [1:0] being masked
(decision D10, log entry 11), with `ADDR_MODE = refuse` too (log entry 14, DEDUCED). On the bus, `RETIRE_READ` of an unmapped address drives the default
and maps nothing, in any responder state (log entry 5, DEDUCED). -/
def Obligations.UnmappedReadsAreDefault : Prop :=
  (∀ (a : Word) (s : State), (key a).toNat ∉ s.mm.mapped → memRead s a = s.mm.defaultValue) ∧
  (∀ (a b : Word) (s : State), key a = key b → memRead s a = memRead s b) ∧
  (∀ (cyc stb we : Bool) (s : State), (key s.rsp.capAdr).toNat ∉ s.mm.mapped →
    (s.cfg.addrMode = .mask ∨ aligned s.rsp.capAdr = true) →
    ∃ t, exec (.retireRead cyc stb we) s = .next t ∧ t.rsp.rdata = s.mm.defaultValue ∧ t.mm = s.mm)

/-- The tokens of an image text and the words they write (30_encoding.md R68, decision D15, log entry
25). A text of whitespace has no token; after whitespace, a run of other characters that the text's
end or whitespace follows is the next token. A token writes a word exactly if it has 1 to 8
characters, each a digit of base 16 in either case; the word is the number they write, the most
significant digit first. -/
def Obligations.ImageTokenGrammar : Prop :=
  (∀ w : List Char, (∀ c ∈ w, c ∈ imageSpaces) → tokens w = []) ∧
  (∀ w t rest : List Char, (∀ c ∈ w, c ∈ imageSpaces) → t ≠ [] → (∀ c ∈ t, c ∉ imageSpaces) →
    (rest = [] ∨ ∃ (c : Char) (r : List Char), rest = c :: r ∧ c ∈ imageSpaces) →
    tokens (w ++ t ++ rest) = t :: tokens rest) ∧
  (∀ (t : List Char) (w : Word), parseToken t = some w ↔
    ∃ ds : List Nat, 1 ≤ ds.length ∧ ds.length ≤ 8 ∧ List.Forall₂ writesDigit t ds ∧
      w.toNat = ds.foldl (fun v d => 16 * v + d) 0)

/-! ### Two rules of the responder, each whole -/

/-- 42_bus_responder.md R117: when the responder is `Idle` and the lines spell a `NOP`, the boundary
selects `IDLE_HOLD`, which clears acknowledge and leaves every other piece of state. -/
def Obligations.IdleHoldOfANop : Prop :=
  ∀ s : State, s.rsp.st = .idle → isRequest s.env.sampled = false →
    (stepInstr s).mnemonic = "IDLE_HOLD" ∧
    ∃ t, exec (stepInstr s) s = .next t ∧ t.rsp = { s.rsp with ack := false } ∧
      t.mm = s.mm ∧ t.clk = s.clk ∧ t.run = s.run ∧ t.cfg = s.cfg ∧ t.diag = s.diag

/-- 42_bus_responder.md R119: when the responder is `Idle` and the lines request a write, the boundary
selects `ACCEPT_WRITE`, which captures address, data and byte-enable and clears acknowledge; memory,
read data and every other piece of state stay, and what the lines are at a later boundary does not
change the write that retires. -/
def Obligations.AcceptWriteOfARequest : Prop :=
  ∀ s : State, s.rsp.st = .idle → isRequest s.env.sampled = true → s.env.sampled.we = true →
    stepInstr s = .acceptWrite ∧
    ∃ t, exec (stepInstr s) s = .next t ∧
      t.rsp = { s.rsp with
        capAdr := s.env.sampled.adr, capDat := s.env.sampled.wdata, capSel := s.env.sampled.sel
        st := .writePending, ack := false } ∧
      t.mm = s.mm ∧ t.clk = s.clk ∧ t.run = s.run ∧ t.cfg = s.cfg ∧ t.diag = s.diag ∧
      ∀ (o : Lines) (u v : State), exec (stepInstr t) t = .next u →
        exec (stepInstr (present o t)) (present o t) = .next v → v.mm = u.mm ∧ v.rsp = u.rsp
end

