-- ==== Sys2Proof/Laws/Encoding.lean ====
section
/-! SUPPORT. The bits of the encoded words, and bytes as numbers. -/

namespace Sys2Proof

/-- Bit `k` of a request word (30_encoding.md R61). -/
theorem reqWord_bit (cyc stb we : Bool) (sel : LaneSel) (adr wdata : Word) (k : Nat) (hk : k < 71) :
    (reqWord cyc stb we sel adr wdata).getLsbD k =
      if k < 32 then wdata.getLsbD k else if k < 64 then adr.getLsbD (k - 32)
      else if k < 68 then sel.getLsbD (k - 64) else if k = 68 then we else if k = 69 then stb else cyc := by
  unfold reqWord
  rw [BitVec.getLsbD_cast, BitVec.getLsbD_append, BitVec.getLsbD_append, BitVec.getLsbD_append,
    BitVec.getLsbD_append, BitVec.getLsbD_append]
  by_cases h0 : k < 32
  · simp only [if_pos h0]
  rw [if_neg h0, if_neg h0]
  by_cases h1 : k < 64
  · rw [if_pos h1, if_pos (by omega)]
  rw [if_neg h1, if_neg (by omega)]
  have e : k - 32 - 32 = k - 64 := by omega
  by_cases h2 : k < 68
  · rw [if_pos h2, e, if_pos (by omega)]
  rw [if_neg h2, e, if_neg (by omega)]
  have : k = 68 ∨ k = 69 ∨ k = 70 := by omega
  rcases this with rfl | rfl | rfl <;> simp

@[simp] theorem natToBytes_length (n w : Nat) : (natToBytes n w).length = n := by
  induction n generalizing w with
  | zero => rfl
  | succ n ih => simp [natToBytes, ih]

theorem bytesToNat_natToBytes (n w : Nat) (h : w < 256 ^ n) : bytesToNat (natToBytes n w) = w := by
  induction n generalizing w with
  | zero => simp at h; simp [natToBytes, bytesToNat, h]
  | succ n ih =>
    have : w / 256 < 256 ^ n := by rw [Nat.pow_succ] at h; omega
    simp only [natToBytes, bytesToNat, ih _ this, BitVec.toNat_ofNat]
    omega

theorem natToBytes_bytesToNat (bs : List Byte) : natToBytes bs.length (bytesToNat bs) = bs := by
  induction bs with
  | nil => rfl
  | cons b bs ih =>
    have := b.isLt
    simp only [List.length_cons, natToBytes, bytesToNat]
    have e : (b.toNat + 256 * bytesToNat bs) / 256 = bytesToNat bs := by omega
    rw [e, ih]
    congr 1
    apply BitVec.eq_of_toNat_eq
    simp only [BitVec.toNat_ofNat]
    omega

theorem format_fits (f : Format) : 2 ^ f.width ≤ 256 ^ f.bytes := by cases f <;> decide

/-- Every word of format STEP decodes. -/
theorem decode_step_ok (w : BitVec 5) : decode .step (natToBytes 1 w.toNat) = .ok (decodeStep w) := by
  revert w; decide

/-- Every index of format PHASE decodes. -/
theorem decode_phase_ok (n : Fin 4) :
    decode .phase (natToBytes 1 n.val) = .ok (decodePhase (BitVec.ofNat 2 n.val)) := by
  revert n; decide

/-- Every word of format REQ decodes. -/
theorem decode_req_ok (w : BitVec 71) : decode .req (natToBytes 9 w.toNat) = .ok (decodeReq w) := by
  have h := w.isLt
  have : bytesToNat (natToBytes 9 w.toNat) = w.toNat := bytesToNat_natToBytes _ _ (by omega)
  simp [decode, this, Format.bytes, Format.width, decodeBits]
  omega

end Sys2Proof
end

