-- ==== Sys2Proof/Laws/State.lean ====
section
/-! SUPPORT. What each named update does to each part of the state: one lemma a part. -/

namespace Sys2Proof.Machine

@[simp] theorem emitIf_mm (c : Bool) (e : Event) (s : State) :
    (emitIf c e s).mm = s.mm := rfl
@[simp] theorem emitIf_rsp (c : Bool) (e : Event) (s : State) :
    (emitIf c e s).rsp = s.rsp := rfl
@[simp] theorem emitIf_clk (c : Bool) (e : Event) (s : State) :
    (emitIf c e s).clk = s.clk := rfl
@[simp] theorem emitIf_run (c : Bool) (e : Event) (s : State) :
    (emitIf c e s).run = s.run := rfl
@[simp] theorem emitIf_cfg (c : Bool) (e : Event) (s : State) :
    (emitIf c e s).cfg = s.cfg := rfl
@[simp] theorem emitIf_diag (c : Bool) (e : Event) (s : State) :
    (emitIf c e s).diag = { s.diag with events := if c then e :: s.diag.events else s.diag.events } := rfl
@[simp] theorem emitIf_env (c : Bool) (e : Event) (s : State) :
    (emitIf c e s).env = s.env := rfl

@[simp] theorem storeWord_mm (a w : Word) (s : State) :
    (storeWord a w s).mm = { s.mm with
      cells := Memory.setWord s.mm.defaultValue s.mm.cells (key a).toNat w
      mapped := insertKey (key a).toNat s.mm.mapped } := rfl
@[simp] theorem storeWord_rsp (a w : Word) (s : State) :
    (storeWord a w s).rsp = s.rsp := rfl
@[simp] theorem storeWord_clk (a w : Word) (s : State) :
    (storeWord a w s).clk = s.clk := rfl
@[simp] theorem storeWord_run (a w : Word) (s : State) :
    (storeWord a w s).run = s.run := rfl
@[simp] theorem storeWord_cfg (a w : Word) (s : State) :
    (storeWord a w s).cfg = s.cfg := rfl
@[simp] theorem storeWord_diag (a w : Word) (s : State) :
    (storeWord a w s).diag = s.diag := rfl
@[simp] theorem storeWord_env (a w : Word) (s : State) :
    (storeWord a w s).env = s.env := rfl

@[simp] theorem present_mm (o : Lines) (s : State) :
    (present o s).mm = s.mm := rfl
@[simp] theorem present_rsp (o : Lines) (s : State) :
    (present o s).rsp = s.rsp := rfl
@[simp] theorem present_clk (o : Lines) (s : State) :
    (present o s).clk = s.clk := rfl
@[simp] theorem present_run (o : Lines) (s : State) :
    (present o s).run = s.run := rfl
@[simp] theorem present_cfg (o : Lines) (s : State) :
    (present o s).cfg = s.cfg := rfl
@[simp] theorem present_diag (o : Lines) (s : State) :
    (present o s).diag = s.diag := rfl
@[simp] theorem present_env (o : Lines) (s : State) :
    (present o s).env = { s.env with sampled := o } := rfl

@[simp] theorem setResponder_mm (r : Responder) (s : State) :
    (setResponder r s).mm = s.mm := rfl
@[simp] theorem setResponder_rsp (r : Responder) (s : State) :
    (setResponder r s).rsp = r := rfl
@[simp] theorem setResponder_clk (r : Responder) (s : State) :
    (setResponder r s).clk = s.clk := rfl
@[simp] theorem setResponder_run (r : Responder) (s : State) :
    (setResponder r s).run = s.run := rfl
@[simp] theorem setResponder_cfg (r : Responder) (s : State) :
    (setResponder r s).cfg = s.cfg := rfl
@[simp] theorem setResponder_diag (r : Responder) (s : State) :
    (setResponder r s).diag = s.diag := rfl
@[simp] theorem setResponder_env (r : Responder) (s : State) :
    (setResponder r s).env = s.env := rfl

@[simp] theorem drivePhase_mm (i : Nat) (s : State) :
    (drivePhase i s).mm = s.mm := rfl
@[simp] theorem drivePhase_rsp (i : Nat) (s : State) :
    (drivePhase i s).rsp = s.rsp := rfl
@[simp] theorem drivePhase_clk (i : Nat) (s : State) :
    (drivePhase i s).clk = { s.clk with
      clk1x := (tableEntry s.cfg.phaseTable i).clk1x
      clk2x := (tableEntry s.cfg.phaseTable i).clk2x } := rfl
@[simp] theorem drivePhase_run (i : Nat) (s : State) :
    (drivePhase i s).run = s.run := rfl
@[simp] theorem drivePhase_cfg (i : Nat) (s : State) :
    (drivePhase i s).cfg = s.cfg := rfl
@[simp] theorem drivePhase_diag (i : Nat) (s : State) :
    (drivePhase i s).diag = s.diag := rfl
@[simp] theorem drivePhase_env (i : Nat) (s : State) :
    (drivePhase i s).env = s.env := rfl

@[simp] theorem countTick_mm (s : State) :
    (countTick s).mm = s.mm := rfl
@[simp] theorem countTick_rsp (s : State) :
    (countTick s).rsp = s.rsp := rfl
@[simp] theorem countTick_clk (s : State) :
    (countTick s).clk = { s.clk with tick := s.clk.tick + 1 } := rfl
@[simp] theorem countTick_run (s : State) :
    (countTick s).run = s.run := rfl
@[simp] theorem countTick_cfg (s : State) :
    (countTick s).cfg = s.cfg := rfl
@[simp] theorem countTick_diag (s : State) :
    (countTick s).diag = s.diag := rfl
@[simp] theorem countTick_env (s : State) :
    (countTick s).env = s.env := rfl

@[simp] theorem applyReset_mm (s : State) :
    (applyReset s).mm = s.mm := rfl
@[simp] theorem applyReset_rsp (s : State) :
    (applyReset s).rsp = s.rsp := rfl
@[simp] theorem applyReset_clk (s : State) :
    (applyReset s).clk = s.clk := rfl
@[simp] theorem applyReset_run (s : State) :
    (applyReset s).run = { s.run with resetLine := resetAfter s.run.cycle s.cfg.resetCycle s.run.resetLine } := rfl
@[simp] theorem applyReset_cfg (s : State) :
    (applyReset s).cfg = s.cfg := rfl
@[simp] theorem applyReset_diag (s : State) :
    (applyReset s).diag = s.diag := rfl
@[simp] theorem applyReset_env (s : State) :
    (applyReset s).env = s.env := rfl

@[simp] theorem countCycle_mm (s : State) :
    (countCycle s).mm = s.mm := rfl
@[simp] theorem countCycle_rsp (s : State) :
    (countCycle s).rsp = s.rsp := rfl
@[simp] theorem countCycle_clk (s : State) :
    (countCycle s).clk = s.clk := rfl
@[simp] theorem countCycle_run (s : State) :
    (countCycle s).run = { s.run with cycle := s.run.cycle + 1 } := rfl
@[simp] theorem countCycle_cfg (s : State) :
    (countCycle s).cfg = s.cfg := rfl
@[simp] theorem countCycle_diag (s : State) :
    (countCycle s).diag = s.diag := rfl
@[simp] theorem countCycle_env (s : State) :
    (countCycle s).env = s.env := rfl

@[simp] theorem testTermination_mm (s : State) :
    (testTermination s).mm = s.mm := rfl
@[simp] theorem testTermination_rsp (s : State) :
    (testTermination s).rsp = s.rsp := rfl
@[simp] theorem testTermination_clk (s : State) :
    (testTermination s).clk = s.clk := rfl
@[simp] theorem testTermination_run (s : State) :
    (testTermination s).run = { s.run with
      termDone := doneAfter s.env.sampled.done s.run.termDone
      termOverrun := overrunAfter s.run.cycle s.cfg.runCycles s.run.termOverrun } := rfl
@[simp] theorem testTermination_cfg (s : State) :
    (testTermination s).cfg = s.cfg := rfl
@[simp] theorem testTermination_diag (s : State) :
    (testTermination s).diag = s.diag := rfl
@[simp] theorem testTermination_env (s : State) :
    (testTermination s).env = s.env := rfl

@[simp] theorem closeRun_mm (s : State) :
    (closeRun s).mm = s.mm := rfl
@[simp] theorem closeRun_rsp (s : State) :
    (closeRun s).rsp = s.rsp := rfl
@[simp] theorem closeRun_clk (s : State) :
    (closeRun s).clk = s.clk := rfl
@[simp] theorem closeRun_run (s : State) :
    (closeRun s).run = s.run := rfl
@[simp] theorem closeRun_cfg (s : State) :
    (closeRun s).cfg = s.cfg := rfl
@[simp] theorem closeRun_diag (s : State) :
    (closeRun s).diag = { s.diag with sinkOpen := false, finalized := true } := rfl
@[simp] theorem closeRun_env (s : State) :
    (closeRun s).env = s.env := rfl

@[simp] theorem queueLines_mm (o : Lines) (s : State) :
    (queueLines o s).mm = s.mm := rfl
@[simp] theorem queueLines_rsp (o : Lines) (s : State) :
    (queueLines o s).rsp = s.rsp := rfl
@[simp] theorem queueLines_clk (o : Lines) (s : State) :
    (queueLines o s).clk = s.clk := rfl
@[simp] theorem queueLines_run (o : Lines) (s : State) :
    (queueLines o s).run = s.run := rfl
@[simp] theorem queueLines_cfg (o : Lines) (s : State) :
    (queueLines o s).cfg = s.cfg := rfl
@[simp] theorem queueLines_diag (o : Lines) (s : State) :
    (queueLines o s).diag = s.diag := rfl
@[simp] theorem queueLines_env (o : Lines) (s : State) :
    (queueLines o s).env = { s.env with script := o :: s.env.script } := rfl

@[simp] theorem readyAt_mm (i : Nat) (s : State) :
    (readyAt i s).mm = s.mm := rfl
@[simp] theorem readyAt_rsp (i : Nat) (s : State) :
    (readyAt i s).rsp = s.rsp := rfl
@[simp] theorem readyAt_clk (i : Nat) (s : State) :
    (readyAt i s).clk = { s.clk with tick := 4 * (s.clk.tick / 4) + (i + 3) % 4 } := rfl
@[simp] theorem readyAt_run (i : Nat) (s : State) :
    (readyAt i s).run = { s.run with termDone := false, termOverrun := false } := rfl
@[simp] theorem readyAt_cfg (i : Nat) (s : State) :
    (readyAt i s).cfg = s.cfg := rfl
@[simp] theorem readyAt_diag (i : Nat) (s : State) :
    (readyAt i s).diag = { s.diag with sinkOpen := true, finalized := false } := rfl
@[simp] theorem readyAt_env (i : Nat) (s : State) :
    (readyAt i s).env = s.env := rfl

@[simp] theorem logStore_mm (a x y : Word) (s : State) :
    (logStore a x y s).mm = s.mm := rfl
@[simp] theorem logStore_rsp (a x y : Word) (s : State) :
    (logStore a x y s).rsp = s.rsp := rfl
@[simp] theorem logStore_clk (a x y : Word) (s : State) :
    (logStore a x y s).clk = s.clk := rfl
@[simp] theorem logStore_run (a x y : Word) (s : State) :
    (logStore a x y s).run = s.run := rfl
@[simp] theorem logStore_cfg (a x y : Word) (s : State) :
    (logStore a x y s).cfg = s.cfg := rfl
@[simp] theorem logStore_env (a x y : Word) (s : State) :
    (logStore a x y s).env = s.env := rfl

@[simp] theorem heartbeat_mm (s : State) :
    (heartbeat s).mm = s.mm := rfl
@[simp] theorem heartbeat_rsp (s : State) :
    (heartbeat s).rsp = s.rsp := rfl
@[simp] theorem heartbeat_clk (s : State) :
    (heartbeat s).clk = s.clk := rfl
@[simp] theorem heartbeat_run (s : State) :
    (heartbeat s).run = s.run := rfl
@[simp] theorem heartbeat_cfg (s : State) :
    (heartbeat s).cfg = s.cfg := rfl
@[simp] theorem heartbeat_env (s : State) :
    (heartbeat s).env = s.env := rfl

@[simp] theorem traceTick_mm (s : State) :
    (traceTick s).mm = s.mm := rfl
@[simp] theorem traceTick_rsp (s : State) :
    (traceTick s).rsp = s.rsp := rfl
@[simp] theorem traceTick_clk (s : State) :
    (traceTick s).clk = s.clk := rfl
@[simp] theorem traceTick_run (s : State) :
    (traceTick s).run = s.run := rfl
@[simp] theorem traceTick_cfg (s : State) :
    (traceTick s).cfg = s.cfg := rfl
@[simp] theorem traceTick_env (s : State) :
    (traceTick s).env = s.env := rfl

@[simp] theorem evaluateDevice_mm (s : State) :
    (evaluateDevice s).mm = s.mm := by
  unfold evaluateDevice; split <;> rfl
@[simp] theorem evaluateDevice_rsp (s : State) :
    (evaluateDevice s).rsp = s.rsp := by
  unfold evaluateDevice; split <;> rfl
@[simp] theorem evaluateDevice_clk (s : State) :
    (evaluateDevice s).clk = s.clk := by
  unfold evaluateDevice; split <;> rfl
@[simp] theorem evaluateDevice_run (s : State) :
    (evaluateDevice s).run = s.run := by
  unfold evaluateDevice; split <;> rfl
@[simp] theorem evaluateDevice_cfg (s : State) :
    (evaluateDevice s).cfg = s.cfg := by
  unfold evaluateDevice; split <;> rfl
@[simp] theorem evaluateDevice_diag (s : State) :
    (evaluateDevice s).diag = s.diag := by
  unfold evaluateDevice; split <;> rfl

@[simp] theorem memWriteWord_mm (a w : Word) (s : State) :
    (memWriteWord a w s).mm = (storeWord a w s).mm := by
  simp [memWriteWord]
@[simp] theorem memWriteWord_rsp (a w : Word) (s : State) :
    (memWriteWord a w s).rsp = s.rsp := by
  simp [memWriteWord]
@[simp] theorem memWriteWord_clk (a w : Word) (s : State) :
    (memWriteWord a w s).clk = s.clk := by
  simp [memWriteWord]
@[simp] theorem memWriteWord_run (a w : Word) (s : State) :
    (memWriteWord a w s).run = s.run := by
  simp [memWriteWord]
@[simp] theorem memWriteWord_cfg (a w : Word) (s : State) :
    (memWriteWord a w s).cfg = s.cfg := by
  simp [memWriteWord]
@[simp] theorem memWriteWord_env (a w : Word) (s : State) :
    (memWriteWord a w s).env = s.env := by
  simp [memWriteWord]

@[simp] theorem memWriteMasked_rsp (a : Word) (be : LaneSel) (w : Word) (s : State) :
    (memWriteMasked a be w s).rsp = s.rsp := by
  unfold memWriteMasked; split <;> simp
@[simp] theorem memWriteMasked_clk (a : Word) (be : LaneSel) (w : Word) (s : State) :
    (memWriteMasked a be w s).clk = s.clk := by
  unfold memWriteMasked; split <;> simp
@[simp] theorem memWriteMasked_run (a : Word) (be : LaneSel) (w : Word) (s : State) :
    (memWriteMasked a be w s).run = s.run := by
  unfold memWriteMasked; split <;> simp
@[simp] theorem memWriteMasked_cfg (a : Word) (be : LaneSel) (w : Word) (s : State) :
    (memWriteMasked a be w s).cfg = s.cfg := by
  unfold memWriteMasked; split <;> simp
@[simp] theorem memWriteMasked_env (a : Word) (be : LaneSel) (w : Word) (s : State) :
    (memWriteMasked a be w s).env = s.env := by
  unfold memWriteMasked; split <;> simp

@[simp] theorem loadTokens_rsp (a : Word) (ts : List (List Char)) (i : Nat) (s : State) :
    (loadTokens a i ts s).rsp = s.rsp := by
  induction ts generalizing i s with
  | nil => rfl
  | cons t ts ih => unfold loadTokens; split <;> simp [ih]
@[simp] theorem loadTokens_clk (a : Word) (ts : List (List Char)) (i : Nat) (s : State) :
    (loadTokens a i ts s).clk = s.clk := by
  induction ts generalizing i s with
  | nil => rfl
  | cons t ts ih => unfold loadTokens; split <;> simp [ih]
@[simp] theorem loadTokens_run (a : Word) (ts : List (List Char)) (i : Nat) (s : State) :
    (loadTokens a i ts s).run = s.run := by
  induction ts generalizing i s with
  | nil => rfl
  | cons t ts ih => unfold loadTokens; split <;> simp [ih]
@[simp] theorem loadTokens_cfg (a : Word) (ts : List (List Char)) (i : Nat) (s : State) :
    (loadTokens a i ts s).cfg = s.cfg := by
  induction ts generalizing i s with
  | nil => rfl
  | cons t ts ih => unfold loadTokens; split <;> simp [ih]
@[simp] theorem loadTokens_env (a : Word) (ts : List (List Char)) (i : Nat) (s : State) :
    (loadTokens a i ts s).env = s.env := by
  induction ts generalizing i s with
  | nil => rfl
  | cons t ts ih => unfold loadTokens; split <;> simp [ih]

end Sys2Proof.Machine
end

