-- ==== Sys2Proof/Laws/Memory.lean ====
section
/-! SUPPORT. Keys, byte lanes and stored bytes: read after write, the canonical form, and what the
memory operations leave alone. -/

namespace Sys2Proof.Machine

/-! ### Keys -/

theorem key_toNat (a : Word) : (key a).toNat = a.toNat - a.toNat % 4 := by
  have := a.isLt
  simp only [key, BitVec.toNat_append, BitVec.extractLsb'_toNat, BitVec.toNat_ofNat, Nat.shiftRight_eq_div_pow,
    Nat.shiftLeft_eq, Nat.zero_mod, Nat.or_zero]
  omega

theorem key_toNat_mod (a : Word) : (key a).toNat % 4 = 0 := by rw [key_toNat]; omega

theorem key_toNat_lt (a : Word) : (key a).toNat + 3 < 2 ^ 32 := by
  have := a.isLt
  have := key_toNat_mod a
  have := (key a).isLt
  omega

theorem key_add_mod (a : Word) : (key a).toNat + a.toNat % 4 = a.toNat := by
  rw [key_toNat]; omega

theorem key_eq_iff (a b : Word) : key a = key b ↔ a.toNat / 4 = b.toNat / 4 := by
  rw [← BitVec.toNat_inj, key_toNat, key_toNat]; omega

@[simp] theorem key_key (a : Word) : key (key a) = key a := by
  rw [key_eq_iff, key_toNat]; omega

/-! ### Byte lanes -/

theorem laneMask_bit (be : LaneSel) (j : Nat) (hj : j < 32) :
    (laneMask be).getLsbD j = be.getLsbD (j / 8) := by
  have h : ∀ be : BitVec 4, ∀ j : Fin 32, (laneMask be).getLsbD j.val = be.getLsbD (j.val / 8) := by
    decide
  exact h be ⟨j, hj⟩

theorem mergeLanes_bit (be : LaneSel) (old w : Word) (j : Nat) (hj : j < 32) :
    (mergeLanes be old w).getLsbD j = if be.getLsbD (j / 8) then w.getLsbD j else old.getLsbD j := by
  simp only [mergeLanes, BitVec.getLsbD_or, BitVec.getLsbD_and, BitVec.getLsbD_not, laneMask_bit be j hj]
  cases be.getLsbD (j / 8) <;> simp [hj]

theorem wordByte_mergeLanes (be : LaneSel) (old w : Word) (i : Nat) (hi : i < 4) :
    wordByte (mergeLanes be old w) i = if selectsByte be i then wordByte w i else wordByte old i := by
  have e : ∀ k, k < 8 → (24 - 8 * i + k) / 8 = 3 - i := by omega
  apply BitVec.eq_of_getLsbD_eq
  intro k hk
  have h := mergeLanes_bit be old w (24 - 8 * i + k) (by omega)
  rw [e k hk] at h
  have hb : ∀ v : Word, (wordByte v i).getLsbD k = v.getLsbD (24 - 8 * i + k) := fun v => by
    simp [wordByte, hk]
  rw [hb, h]
  cases hs : selectsByte be i <;> rw [selectsByte] at hs <;> simp [hs, hb]

@[simp] theorem mergeLanes_all (old w : Word) : mergeLanes 0xF#4 old w = w := by
  have h : laneMask 0xF#4 = BitVec.allOnes 32 := by decide
  rw [mergeLanes, h, BitVec.and_allOnes, BitVec.not_allOnes, BitVec.and_zero, BitVec.zero_or]

@[simp] theorem mergeLanes_none (old w : Word) : mergeLanes 0#4 old w = old := by
  have h : laneMask 0#4 = 0#32 := by decide
  rw [mergeLanes, h, BitVec.not_zero, BitVec.and_allOnes, BitVec.and_zero, BitVec.or_zero]

theorem wordOfBytes_wordByte (w : Word) :
    wordOfBytes (wordByte w 0) (wordByte w 1) (wordByte w 2) (wordByte w 3) = w := by
  apply BitVec.eq_of_getLsbD_eq
  intro k hk
  simp only [wordOfBytes, wordByte, BitVec.getLsbD_append, BitVec.getLsbD_extractLsb']
  by_cases h0 : k < 8
  · simp [h0]
  · by_cases h1 : k < 16
    · have : k - 8 < 8 := by omega
      have e : 8 + (k - 8) = k := by omega
      simp [h0, this, e]
    · by_cases h2 : k < 24
      · have a1 : ¬ k - 8 < 8 := by omega
        have a2 : k - 8 - 8 < 8 := by omega
        have e : 16 + (k - 8 - 8) = k := by omega
        simp [h0, a1, a2, e]
      · have a1 : ¬ k - 8 < 8 := by omega
        have a2 : ¬ k - 8 - 8 < 8 := by omega
        have a3 : k - 8 - 8 - 8 < 8 := by omega
        have e : 24 + (k - 8 - 8 - 8) = k := by omega
        simp [h0, a1, a2, a3, e]

/-! ### One stored byte -/

theorem get_insert (dv : Word) (c : Host.Cell) (m : Memory) (a : Nat) (h : ∀ d ∈ m, d.1 ≠ c.1) :
    Memory.get dv (Memory.insert c m) a = if a = c.1 then c.2 else Memory.get dv m a := by
  induction m with
  | nil => simp only [Memory.insert, Memory.get, eq_comm (a := a)]
  | cons d m ih =>
    have hd := h d (by simp)
    have hm : ∀ d ∈ m, d.1 ≠ c.1 := fun x hx => h x (by simp [hx])
    unfold Memory.insert
    split
    · simp only [Memory.get, eq_comm (a := a)]
    · simp only [Memory.get, ih hm]
      split <;> split <;> simp_all

theorem mem_remove {x : Nat} {m : Memory} {c : Host.Cell} :
    c ∈ Memory.remove x m ↔ c ∈ m ∧ c.1 ≠ x := by
  induction m with
  | nil => simp [Memory.remove]
  | cons d m ih =>
    unfold Memory.remove
    split
    · rename_i h
      constructor
      · intro hc; exact ⟨by simp [(ih.1 hc).1], (ih.1 hc).2⟩
      · rintro ⟨hc, hx⟩
        rcases List.mem_cons.1 hc with rfl | hc
        · exact absurd h hx
        · exact ih.2 ⟨hc, hx⟩
    · rename_i h
      constructor
      · intro hc
        rcases List.mem_cons.1 hc with rfl | hc
        · exact ⟨by simp, h⟩
        · exact ⟨by simp [(ih.1 hc).1], (ih.1 hc).2⟩
      · rintro ⟨hc, hx⟩
        rcases List.mem_cons.1 hc with rfl | hc
        · simp
        · simp [ih.2 ⟨hc, hx⟩]

theorem mem_insert {c d : Host.Cell} {m : Memory} : d ∈ Memory.insert c m ↔ d = c ∨ d ∈ m := by
  induction m with
  | nil => simp [Memory.insert]
  | cons e m ih =>
    unfold Memory.insert
    split
    · simp
    · simp only [List.mem_cons, ih]; tauto

theorem get_remove (dv : Word) (m : Memory) (x a : Nat) :
    Memory.get dv (Memory.remove x m) a = if a = x then fillByte dv a else Memory.get dv m a := by
  induction m with
  | nil => simp [Memory.remove, Memory.get]
  | cons d m ih =>
    unfold Memory.remove
    split
    · rename_i h
      rw [ih]
      by_cases hax : a = x
      · simp [hax]
      · have : ¬ d.1 = a := by omega
        simp [Memory.get, hax, this]
    · rename_i h
      simp only [Memory.get, ih]
      by_cases hda : d.1 = a
      · have : ¬ a = x := by omega
        simp [hda, this]
      · simp [hda]

/-- Read after write of one byte, and every other byte unchanged. -/
theorem get_set (dv : Word) (m : Memory) (x a : Nat) (b : Byte) :
    Memory.get dv (Memory.set dv m x b) a = if a = x then b else Memory.get dv m a := by
  unfold Memory.set
  split
  · rename_i h
    rw [get_remove]
    split
    · rename_i e; rw [e, h]
    · rfl
  · rw [get_insert _ _ _ _ (fun d hd => (mem_remove.1 hd).2), get_remove]
    split <;> simp_all

theorem mem_set {dv : Word} {m : Memory} {x : Nat} {b : Byte} {c : Host.Cell}
    (h : c ∈ Memory.set dv m x b) : c.1 = x ∨ c ∈ m := by
  unfold Memory.set at h
  split at h
  · exact .inr (mem_remove.1 h).1
  · rcases mem_insert.1 h with rfl | h
    · exact .inl rfl
    · exact .inr (mem_remove.1 h).1

/-! ### The canonical form -/

theorem wf_iff (dv : Word) (m : Memory) :
    Memory.wf dv m = true ↔
      m.Pairwise (fun c d => c.1 < d.1) ∧ (∀ c ∈ m, c.2 ≠ fillByte dv c.1) ∧ ∀ c ∈ m, c.1 < 2 ^ 32 := by
  induction m with
  | nil => simp [Memory.wf]
  | cons c m ih =>
    cases m with
    | nil => simp [Memory.wf, and_comm]
    | cons d m =>
      simp only [Memory.wf, Bool.and_eq_true, decide_eq_true_eq, ih]
      constructor
      · rintro ⟨⟨h1, h2⟩, h3, h4, h5⟩
        refine ⟨List.pairwise_cons.2 ⟨?_, h3⟩, ?_, ?_⟩
        · intro e he
          rcases List.mem_cons.1 he with rfl | he
          · exact h1
          · exact lt_trans h1 ((List.pairwise_cons.1 h3).1 e he)
        · intro e he
          rcases List.mem_cons.1 he with rfl | he
          · exact h2
          · exact h4 e he
        · intro e he
          rcases List.mem_cons.1 he with rfl | he
          · exact lt_trans h1 (h5 d (by simp))
          · exact h5 e he
      · rintro ⟨h1, h2, h3⟩
        obtain ⟨h4, h5⟩ := List.pairwise_cons.1 h1
        exact ⟨⟨h4 d (by simp), h2 c (by simp)⟩, h5, fun e he => h2 e (by simp [he]), fun e he => h3 e (by simp [he])⟩

theorem pairwise_remove {m : Memory} (x : Nat) (h : m.Pairwise (fun c d => c.1 < d.1)) :
    (Memory.remove x m).Pairwise (fun c d => c.1 < d.1) := by
  induction m with
  | nil => simp [Memory.remove]
  | cons d m ih =>
    obtain ⟨h1, h2⟩ := List.pairwise_cons.1 h
    unfold Memory.remove
    split
    · exact ih h2
    · exact List.pairwise_cons.2 ⟨fun e he => h1 e (mem_remove.1 he).1, ih h2⟩

theorem pairwise_insert {m : Memory} {c : Host.Cell} (h : m.Pairwise (fun c d => c.1 < d.1))
    (hc : ∀ d ∈ m, d.1 ≠ c.1) : (Memory.insert c m).Pairwise (fun c d => c.1 < d.1) := by
  induction m with
  | nil => simp [Memory.insert]
  | cons d m ih =>
    obtain ⟨h1, h2⟩ := List.pairwise_cons.1 h
    unfold Memory.insert
    split
    · rename_i hlt
      refine List.pairwise_cons.2 ⟨?_, h⟩
      intro e he
      rcases List.mem_cons.1 he with rfl | he
      · exact hlt
      · exact lt_trans hlt (h1 e he)
    · rename_i hlt
      have hne := hc d (by simp)
      refine List.pairwise_cons.2 ⟨?_, ih h2 (fun e he => hc e (by simp [he]))⟩
      intro e he
      rcases mem_insert.1 he with rfl | he
      · omega
      · exact h1 e he

/-- A byte write keeps the canonical form. -/
theorem set_wf {dv : Word} {m : Memory} {x : Nat} (b : Byte) (hx : x < 2 ^ 32) (h : Memory.wf dv m = true) :
    Memory.wf dv (Memory.set dv m x b) = true := by
  rw [wf_iff] at *
  obtain ⟨h1, h2, h3⟩ := h
  unfold Memory.set
  split
  · exact ⟨pairwise_remove x h1, fun c hc => h2 c (mem_remove.1 hc).1, fun c hc => h3 c (mem_remove.1 hc).1⟩
  · rename_i hb
    refine ⟨pairwise_insert (pairwise_remove x h1) (fun d hd => (mem_remove.1 hd).2), ?_, ?_⟩
    · intro c hc
      rcases mem_insert.1 hc with rfl | hc
      · exact hb
      · exact h2 c (mem_remove.1 hc).1
    · intro c hc
      rcases mem_insert.1 hc with rfl | hc
      · exact hx
      · exact h3 c (mem_remove.1 hc).1

/-! ### One stored word -/

theorem get_setWord (dv : Word) (m : Memory) (k a : Nat) (w : Word) :
    Memory.get dv (Memory.setWord dv m k w) a =
      if k ≤ a ∧ a < k + 4 then wordByte w (a - k) else Memory.get dv m a := by
  simp only [Memory.setWord, get_set]
  by_cases h3 : a = k + 3
  · subst h3; simp
  by_cases h2 : a = k + 2
  · subst h2; simp
  by_cases h1 : a = k + 1
  · subst h1; simp
  by_cases h0 : a = k
  · subst h0; simp
  have : ¬ (k ≤ a ∧ a < k + 4) := by omega
  simp [h0, h1, h2, h3, this]

theorem getWord_setWord (dv : Word) (m : Memory) (k : Nat) (w : Word) :
    Memory.getWord dv (Memory.setWord dv m k w) k = w := by
  simp [Memory.getWord, get_setWord, wordOfBytes_wordByte]

theorem getWord_setWord_ne (dv : Word) (m : Memory) (k l : Nat) (w : Word) (hk : k % 4 = 0) (hl : l % 4 = 0)
    (h : l ≠ k) : Memory.getWord dv (Memory.setWord dv m k w) l = Memory.getWord dv m l := by
  have e : ∀ i, i < 4 → ¬ (k ≤ l + i ∧ l + i < k + 4) := by omega
  have e0 : ¬ (k ≤ l ∧ l < k + 4) := e 0 (by omega)
  simp only [Memory.getWord, get_setWord, if_neg e0, if_neg (e 1 (by omega)), if_neg (e 2 (by omega)),
    if_neg (e 3 (by omega))]

theorem setWord_wf {dv : Word} {m : Memory} {k : Nat} (w : Word) (hk : k + 3 < 2 ^ 32)
    (h : Memory.wf dv m = true) : Memory.wf dv (Memory.setWord dv m k w) = true :=
  set_wf _ (by omega) (set_wf _ (by omega) (set_wf _ (by omega) (set_wf _ (by omega) h)))

theorem mem_setWord {dv : Word} {m : Memory} {k : Nat} {w : Word} {c : Host.Cell}
    (h : c ∈ Memory.setWord dv m k w) : (k ≤ c.1 ∧ c.1 < k + 4) ∨ c ∈ m := by
  rcases mem_set h with h | h
  · exact .inl (by omega)
  rcases mem_set h with h | h
  · exact .inl (by omega)
  rcases mem_set h with h | h
  · exact .inl (by omega)
  rcases mem_set h with h | h
  · exact .inl (by omega)
  · exact .inr h

/-! ### Mapped keys -/

theorem mem_insertKey {k x : Nat} {ks : List Nat} : x ∈ insertKey k ks ↔ x = k ∨ x ∈ ks := by
  induction ks with
  | nil => simp [insertKey]
  | cons y ks ih =>
    unfold insertKey
    split
    · simp
    · split
      · rename_i h; subst h; simp
      · simp only [List.mem_cons, ih]; tauto

theorem keysWf_iff (ks : List Nat) :
    keysWf ks = true ↔ ks.Pairwise (· < ·) ∧ (∀ k ∈ ks, k % 4 = 0) ∧ ∀ k ∈ ks, k < 2 ^ 32 := by
  induction ks with
  | nil => simp [keysWf]
  | cons k ks ih =>
    cases ks with
    | nil => simp [keysWf]
    | cons l ks =>
      simp only [keysWf, Bool.and_eq_true, decide_eq_true_eq, ih]
      constructor
      · rintro ⟨⟨h1, h2⟩, h3, h4, h5⟩
        refine ⟨List.pairwise_cons.2 ⟨?_, h3⟩, ?_, ?_⟩
        · intro e he
          rcases List.mem_cons.1 he with rfl | he
          · exact h2
          · exact lt_trans h2 ((List.pairwise_cons.1 h3).1 e he)
        · intro e he
          rcases List.mem_cons.1 he with rfl | he
          · exact h1
          · exact h4 e he
        · intro e he
          rcases List.mem_cons.1 he with rfl | he
          · exact lt_trans h2 (h5 l (by simp))
          · exact h5 e he
      · rintro ⟨h1, h2, h3⟩
        obtain ⟨h4, h5⟩ := List.pairwise_cons.1 h1
        exact ⟨⟨h2 k (by simp), h4 l (by simp)⟩, h5, fun e he => h2 e (by simp [he]), fun e he => h3 e (by simp [he])⟩

theorem insertKey_wf {k : Nat} {ks : List Nat} (h4 : k % 4 = 0) (hk : k < 2 ^ 32) (h : keysWf ks = true) :
    keysWf (insertKey k ks) = true := by
  rw [keysWf_iff] at *
  obtain ⟨h1, h2, h3⟩ := h
  refine ⟨?_, ?_, ?_⟩
  · clear h2 h3
    induction ks with
    | nil => simp [insertKey]
    | cons y ks ih =>
      obtain ⟨g1, g2⟩ := List.pairwise_cons.1 h1
      unfold insertKey
      split
      · rename_i hlt
        refine List.pairwise_cons.2 ⟨?_, h1⟩
        intro e he
        rcases List.mem_cons.1 he with rfl | he
        · exact hlt
        · exact lt_trans hlt (g1 e he)
      · split
        · exact h1
        · rename_i h5 h6
          refine List.pairwise_cons.2 ⟨?_, ih g2⟩
          intro e he
          rcases mem_insertKey.1 he with rfl | he
          · omega
          · exact g1 e he
  · intro x hx
    rcases mem_insertKey.1 hx with rfl | hx
    · exact h4
    · exact h2 x hx
  · intro x hx
    rcases mem_insertKey.1 hx with rfl | hx
    · exact hk
    · exact h3 x hx

/-! ### Memory operations -/

theorem memRead_of_mm {s t : State} (h : t.mm = s.mm) (a : Word) : memRead t a = memRead s a := by
  simp only [memRead, h]

theorem memByte_of_mm {s t : State} (h : t.mm = s.mm) (a : Word) : memByte t a = memByte s a := by
  simp only [memByte, memRead_of_mm h]

@[simp] theorem memRead_emitIf (c : Bool) (e : Event) (s : State) (a : Word) : memRead (emitIf c e s) a = memRead s a := memRead_of_mm (by simp) a
@[simp] theorem memByte_emitIf (c : Bool) (e : Event) (s : State) (a : Word) : memByte (emitIf c e s) a = memByte s a := memByte_of_mm (by simp) a
@[simp] theorem memRead_present (o : Lines) (s : State) (a : Word) : memRead (present o s) a = memRead s a := memRead_of_mm (by simp) a
@[simp] theorem memByte_present (o : Lines) (s : State) (a : Word) : memByte (present o s) a = memByte s a := memByte_of_mm (by simp) a
@[simp] theorem memRead_setResponder (r : Responder) (s : State) (a : Word) : memRead (setResponder r s) a = memRead s a := memRead_of_mm (by simp) a
@[simp] theorem memByte_setResponder (r : Responder) (s : State) (a : Word) : memByte (setResponder r s) a = memByte s a := memByte_of_mm (by simp) a
@[simp] theorem memRead_drivePhase (i : Nat) (s : State) (a : Word) : memRead (drivePhase i s) a = memRead s a := memRead_of_mm (by simp) a
@[simp] theorem memByte_drivePhase (i : Nat) (s : State) (a : Word) : memByte (drivePhase i s) a = memByte s a := memByte_of_mm (by simp) a
@[simp] theorem memRead_countTick (s : State) (a : Word) : memRead (countTick s) a = memRead s a := memRead_of_mm (by simp) a
@[simp] theorem memByte_countTick (s : State) (a : Word) : memByte (countTick s) a = memByte s a := memByte_of_mm (by simp) a
@[simp] theorem memRead_applyReset (s : State) (a : Word) : memRead (applyReset s) a = memRead s a := memRead_of_mm (by simp) a
@[simp] theorem memByte_applyReset (s : State) (a : Word) : memByte (applyReset s) a = memByte s a := memByte_of_mm (by simp) a
@[simp] theorem memRead_countCycle (s : State) (a : Word) : memRead (countCycle s) a = memRead s a := memRead_of_mm (by simp) a
@[simp] theorem memByte_countCycle (s : State) (a : Word) : memByte (countCycle s) a = memByte s a := memByte_of_mm (by simp) a
@[simp] theorem memRead_testTermination (s : State) (a : Word) : memRead (testTermination s) a = memRead s a := memRead_of_mm (by simp) a
@[simp] theorem memByte_testTermination (s : State) (a : Word) : memByte (testTermination s) a = memByte s a := memByte_of_mm (by simp) a
@[simp] theorem memRead_heartbeat (s : State) (a : Word) : memRead (heartbeat s) a = memRead s a := memRead_of_mm (by simp) a
@[simp] theorem memByte_heartbeat (s : State) (a : Word) : memByte (heartbeat s) a = memByte s a := memByte_of_mm (by simp) a
@[simp] theorem memRead_traceTick (s : State) (a : Word) : memRead (traceTick s) a = memRead s a := memRead_of_mm (by simp) a
@[simp] theorem memByte_traceTick (s : State) (a : Word) : memByte (traceTick s) a = memByte s a := memByte_of_mm (by simp) a
@[simp] theorem memRead_evaluateDevice (s : State) (a : Word) : memRead (evaluateDevice s) a = memRead s a := memRead_of_mm (by simp) a
@[simp] theorem memByte_evaluateDevice (s : State) (a : Word) : memByte (evaluateDevice s) a = memByte s a := memByte_of_mm (by simp) a

theorem memRead_key (s : State) (a : Word) : memRead s (key a) = memRead s a := by
  simp only [memRead, key_key]

/-- An unmapped word reads as the default. -/
theorem memRead_unmapped {s : State} {a : Word} (h : (key a).toNat ∉ s.mm.mapped) :
    memRead s a = s.mm.defaultValue := if_neg h

theorem memRead_congr_key (s : State) {a b : Word} (h : key a = key b) : memRead s a = memRead s b := by
  rw [← memRead_key s a, h, memRead_key]

/-- Read after write of a word, and every other key unchanged. -/
theorem memRead_storeWord (a b w : Word) (s : State) :
    memRead (storeWord b w s) a = if key a = key b then w else memRead s a := by
  by_cases h : key a = key b
  · simp [memRead, mem_insertKey, h, getWord_setWord]
  · have hn : (key a).toNat ≠ (key b).toNat := fun e => h (BitVec.toNat_inj.1 e)
    simp [memRead, mem_insertKey, h, hn,
      getWord_setWord_ne _ _ _ _ _ (key_toNat_mod b) (key_toNat_mod a) hn]

theorem memRead_memWriteWord (a b w : Word) (s : State) :
    memRead (memWriteWord b w s) a = if key a = key b then w else memRead s a := by
  rw [memRead_of_mm (memWriteWord_mm b w s), memRead_storeWord]

theorem memRead_memWriteMasked (a b : Word) (be : LaneSel) (w : Word) (s : State) :
    memRead (memWriteMasked b be w s) a =
      if key a = key b then mergeLanes be (memRead s b) w else memRead s a := by
  unfold memWriteMasked
  split
  · rename_i h
    split
    · rename_i hk
      rw [h, mergeLanes_none, memRead_congr_key s hk]
    · rfl
  · rw [memRead_memWriteWord]

/-- A masked write changes the selected bytes of its word and no other byte. -/
theorem memByte_memWriteMasked (a b : Word) (be : LaneSel) (w : Word) (s : State) :
    memByte (memWriteMasked b be w s) a =
      if storesTo b be a then wordByte w (a.toNat % 4) else memByte s a := by
  have h4 : a.toNat % 4 < 4 := by omega
  unfold memByte storesTo
  rw [memRead_memWriteMasked]
  by_cases h : key a = key b
  · simp only [h, if_true, beq_self_eq_true, Bool.true_and, wordByte_mergeLanes _ _ _ _ h4]
    rw [memRead_congr_key s h.symm]
  · simp [h]

theorem storeWord_memoryInv {s : State} (a w : Word) (h : MemoryInv s.mm) : MemoryInv (storeWord a w s).mm := by
  have hk := key_toNat_lt a
  have h4 := key_toNat_mod a
  refine ⟨?_, ?_, ?_⟩
  · simp only [storeWord_mm]; exact setWord_wf _ hk h.cells_wf
  · simp only [storeWord_mm]; exact insertKey_wf h4 (by omega) h.keys_wf
  · simp only [storeWord_mm]
    intro c hc
    rcases mem_setWord hc with hc | hc
    · exact mem_insertKey.2 (.inl (by omega))
    · exact mem_insertKey.2 (.inr (h.cells_mapped c hc))

theorem memWriteWord_memoryInv {s : State} (a w : Word) (h : MemoryInv s.mm) :
    MemoryInv (memWriteWord a w s).mm := by
  rw [memWriteWord_mm]; exact storeWord_memoryInv a w h

theorem memWriteMasked_memoryInv {s : State} (a : Word) (be : LaneSel) (w : Word) (h : MemoryInv s.mm) :
    MemoryInv (memWriteMasked a be w s).mm := by
  unfold memWriteMasked
  split
  · exact h
  · exact memWriteWord_memoryInv _ _ h

theorem loadTokens_memoryInv (base : Word) (ts : List (List Char)) (i : Nat) (s : State) (h : MemoryInv s.mm) :
    MemoryInv (loadTokens base i ts s).mm := by
  induction ts generalizing i s with
  | nil => exact h
  | cons t ts ih =>
    unfold loadTokens
    split
    · exact h
    · exact ih _ _ (memWriteWord_memoryInv _ _ h)

theorem construct_memoryInv (p : Params) (d : Draws) : MemoryInv (State.construct p d).mm :=
  ⟨rfl, rfl, by simp [State.construct]⟩

/-- The reset state's memory has the canonical form. -/
theorem reset_memory_wf : MemoryInv State.reset.mm := construct_memoryInv _ _

/-- What a masked write makes of memory depends on memory alone. -/
theorem memWriteMasked_mm_congr {s t : State} (h : t.mm = s.mm) (a : Word) (be : LaneSel) (w : Word) :
    (memWriteMasked a be w t).mm = (memWriteMasked a be w s).mm := by
  unfold memWriteMasked
  by_cases hb : be = 0#4
  · simp [hb, h]
  · simp [hb, h, memRead_of_mm h]

/-- Only the contents of the map change in a write: the attributes stay. -/
theorem memWriteMasked_attributes (a : Word) (be : LaneSel) (w : Word) (s : State) :
    (memWriteMasked a be w s).mm.defaultValue = s.mm.defaultValue ∧
    (memWriteMasked a be w s).mm.littleEndian = s.mm.littleEndian ∧
    (memWriteMasked a be w s).mm.logStores = s.mm.logStores := by
  unfold memWriteMasked
  split <;> simp

/-- A word write leaves the sink and the finalization. -/
theorem memWriteWord_diag (a w : Word) (s : State) :
    (memWriteWord a w s).diag.sinkOpen = s.diag.sinkOpen ∧
    (memWriteWord a w s).diag.finalized = s.diag.finalized := ⟨rfl, rfl⟩

theorem memWriteMasked_diag (a : Word) (be : LaneSel) (w : Word) (s : State) :
    (memWriteMasked a be w s).diag.sinkOpen = s.diag.sinkOpen ∧
    (memWriteMasked a be w s).diag.finalized = s.diag.finalized := by
  unfold memWriteMasked memWriteWord logStore
  split <;> simp

theorem loadTokens_attributes (base : Word) (ts : List (List Char)) (i : Nat) (s : State) :
    (loadTokens base i ts s).mm.defaultValue = s.mm.defaultValue ∧
    (loadTokens base i ts s).mm.littleEndian = s.mm.littleEndian ∧
    (loadTokens base i ts s).mm.logStores = s.mm.logStores ∧
    (loadTokens base i ts s).diag.sinkOpen = s.diag.sinkOpen ∧
    (loadTokens base i ts s).diag.finalized = s.diag.finalized := by
  induction ts generalizing i s with
  | nil => simp [loadTokens]
  | cons t ts ih =>
    unfold loadTokens
    split
    · simp
    · rename_i w _
      have h := ih (i + 1) (memWriteWord (imageAddr base i) w s)
      have hd : (memWriteWord (imageAddr base i) w s).diag.sinkOpen = s.diag.sinkOpen ∧
          (memWriteWord (imageAddr base i) w s).diag.finalized = s.diag.finalized := by
        simp [memWriteWord, logStore]
      simpa [hd] using h

/-- Which keys a masked write leaves mapped. -/
theorem mem_mapped_memWriteMasked (a : Word) (be : LaneSel) (w : Word) (s : State) (k : Nat) :
    k ∈ (memWriteMasked a be w s).mm.mapped ↔ k ∈ s.mm.mapped ∨ (be ≠ 0#4 ∧ k = (key a).toNat) := by
  unfold memWriteMasked
  split
  · simp_all
  · simp [mem_insertKey, *]; tauto

end Sys2Proof.Machine
end

