-- ==== Sys2Proof/Laws/Image.lean ====
section
/-! SUPPORT. The characters of an image text, and what a load maps. -/

namespace Sys2Proof.Machine

theorem char_eq_of_toNat {c d : Char} (h : c.toNat = d.toNat) : c = d := by
  rw [← Char.ofNat_toNat c, h, Char.ofNat_toNat]

/-- The whitespace test is membership in the six characters. -/
theorem isImageSpace_iff (c : Char) : isImageSpace c = true ↔ c ∈ imageSpaces := by
  have e : ∀ d : Char, (c.toNat == d.toNat) = true ↔ c = d := fun d =>
    ⟨fun h => char_eq_of_toNat (by simpa using h), fun h => by simp [h]⟩
  have hs := e ' '; have ht := e '\t'; have hn := e '\n'; have hr := e '\r'
  have hv := e (Char.ofNat 11); have hf := e (Char.ofNat 12)
  simp only [isImageSpace, Bool.or_eq_true, imageSpaces, List.mem_cons, List.not_mem_nil, or_false, or_assoc]
  exact or_congr hs (or_congr ht (or_congr hn (or_congr hr (or_congr hv hf))))

/-- A character writes digits below 16 only. -/
theorem writesDigit_lt {c : Char} {d : Nat} (h : writesDigit c d) : d < 16 := by
  rcases h with h | h <;> exact (List.getElem?_eq_some_iff.1 h).1

/-- Whitespace before a token is skipped. -/
theorem tokensFrom_spaces (w rest : List Char) (h : ∀ c ∈ w, isImageSpace c = true) :
    tokensFrom [] (w ++ rest) = tokensFrom [] rest := by
  induction w with
  | nil => rfl
  | cons c w ih =>
    have hc := h c (by simp)
    simp [tokensFrom, hc, ih fun c hc => h c (by simp [hc])]

/-- Other characters are added to the token being read. -/
theorem tokensFrom_run (cur t rest : List Char) (h : ∀ c ∈ t, isImageSpace c = false) :
    tokensFrom cur (t ++ rest) = tokensFrom (t.reverse ++ cur) rest := by
  induction t generalizing cur with
  | nil => rfl
  | cons c t ih =>
    have hc := h c (by simp)
    simp [tokensFrom, hc, ih _ fun c hc => h c (by simp [hc])]

/-- The keys a load leaves mapped. -/
theorem mem_mapped_loadTokens (base : Word) (ts : List (List Char)) (n : Nat) (s : State) (k : Nat) :
    k ∈ (loadTokens base n ts s).mm.mapped ↔
      k ∈ s.mm.mapped ∨ ∃ i < (parsedWords ts).length, k = (key (imageAddr base (n + i))).toNat := by
  induction ts generalizing n s with
  | nil => simp [parsedWords, loadTokens]
  | cons t ts ih =>
    cases hp : parseToken t with
    | none => simp [parsedWords, loadTokens, hp]
    | some w =>
      have e : ∀ i, n + 1 + i = n + (i + 1) := by omega
      simp only [parsedWords, hp, loadTokens, List.length_cons, ih, memWriteWord_mm, mem_insertKey, storeWord_mm, e]
      constructor
      · rintro ((rfl | h) | ⟨i, hi, rfl⟩)
        · exact .inr ⟨0, by omega, rfl⟩
        · exact .inl h
        · exact .inr ⟨i + 1, by omega, rfl⟩
      · rintro (h | ⟨_ | i, hi, rfl⟩)
        · exact .inl (.inr h)
        · exact .inl (.inl rfl)
        · exact .inr ⟨i, by omega, rfl⟩

end Sys2Proof.Machine
end

