-- ==== Sys2Proof/Laws/Ops.lean ====
section
/-! SUPPORT. What the responder's operations and the sequencing of operations can do. -/

namespace Sys2Proof.Machine

/-! ### Sequencing -/

@[simp] theorem andThen_of_next (s : State) (k : State → Host.Outcome State Fault Refusal) :
    andThen (.next s) k = k s := rfl

@[simp] theorem andThen_of_refused (r : Refusal) (k : State → Host.Outcome State Fault Refusal) :
    andThen (.refused r) k = .refused r := rfl

theorem andThen_eq_next {o : Host.Outcome State Fault Refusal} {k : State → Host.Outcome State Fault Refusal}
    {t : State} (h : andThen o k = .next t) : ∃ s, o = .next s ∧ k s = .next t := by
  cases o with
  | next s => exact ⟨s, rfl, h⟩
  | fault f => cases h
  | refused r => cases h

/-! ### Refused addresses -/

/-- An access is refused exactly with `ADDR_MODE = refuse` and an address that is not aligned. -/
theorem refusesAddr_iff (s : State) (a : Word) :
    refusesAddr s a = true ↔ s.cfg.addrMode = .refuse ∧ aligned a = false := by
  unfold refusesAddr
  cases s.cfg.addrMode <;> simp

theorem refusesAddr_false {s : State} {a : Word} (h : s.cfg.addrMode = .mask ∨ aligned a = true) :
    refusesAddr s a = false := by
  unfold refusesAddr
  rcases h with h | h
  · simp [h]
  · cases s.cfg.addrMode <;> simp [h]

theorem accessing_eq_next {a : Word} {s t : State} {o : Host.Outcome State Fault Refusal}
    (h : accessing a s o = .next t) : refusesAddr s a = false ∧ o = .next t := by
  unfold accessing at h
  cases hr : refusesAddr s a with
  | true => simp [hr] at h
  | false => exact ⟨rfl, by simpa [hr] using h⟩

theorem accessing_of_readable {a : Word} {s : State} (o : Host.Outcome State Fault Refusal)
    (h : refusesAddr s a = false) : accessing a s o = o := by
  simp [accessing, h]

/-! ### The micro-operations -/

theorem retireRead_of_readable {s : State} (h : refusesAddr s s.rsp.capAdr = false) :
    retireRead s =
      .next (setResponder { s.rsp with rdata := memRead s s.rsp.capAdr, ack := true, st := .idle } s) :=
  accessing_of_readable _ h

theorem retireWrite_of_readable {s : State} (h : refusesAddr s s.rsp.capAdr = false) :
    retireWrite s =
      .next (setResponder { s.rsp with ack := true, st := .idle }
        (memWriteMasked s.rsp.capAdr s.rsp.capSel s.rsp.capDat s)) :=
  accessing_of_readable _ h

/-- Everything `RSP.STEP` can do when it answers a next state. -/
theorem rspStep_eq_next {s t : State} (h : rspStep s = .next t) :
    (s.rsp.st = .idle ∧ isRequest s.env.sampled = false ∧ t = idleHold s) ∨
    (s.rsp.st = .idle ∧ isRequest s.env.sampled = true ∧ s.env.sampled.we = false ∧ t = acceptRead s) ∨
    (s.rsp.st = .idle ∧ isRequest s.env.sampled = true ∧ s.env.sampled.we = true ∧ t = acceptWrite s) ∨
    (s.rsp.st = .readPending ∧ refusesAddr s s.rsp.capAdr = false ∧
      t = setResponder { s.rsp with rdata := memRead s s.rsp.capAdr, ack := true, st := .idle } s) ∨
    (s.rsp.st = .writePending ∧ refusesAddr s s.rsp.capAdr = false ∧
      t = setResponder { s.rsp with ack := true, st := .idle }
        (memWriteMasked s.rsp.capAdr s.rsp.capSel s.rsp.capDat s)) := by
  unfold rspStep at h
  split at h
  · rename_i hst
    cases hr : isRequest s.env.sampled with
    | false =>
      have hr' := hr
      unfold isRequest at hr'
      simp only [hr', Bool.false_eq_true, if_false, Host.Outcome.next.injEq] at h
      exact .inl ⟨hst, rfl, h.symm⟩
    | true =>
      have hr' := hr
      unfold isRequest at hr'
      simp only [hr', if_true] at h
      cases hw : s.env.sampled.we with
      | false =>
        simp only [hw, Bool.false_eq_true, if_false, Host.Outcome.next.injEq] at h
        exact .inr (.inl ⟨hst, rfl, rfl, h.symm⟩)
      | true =>
        simp only [hw, if_true, Host.Outcome.next.injEq] at h
        exact .inr (.inr (.inl ⟨hst, rfl, rfl, h.symm⟩))
  · rename_i hst
    obtain ⟨h1, h2⟩ := accessing_eq_next h
    exact .inr (.inr (.inr (.inl ⟨hst, h1, (Host.Outcome.next.inj h2).symm⟩)))
  · rename_i hst
    obtain ⟨h1, h2⟩ := accessing_eq_next h
    exact .inr (.inr (.inr (.inr ⟨hst, h1, (Host.Outcome.next.inj h2).symm⟩)))

/-- `RSP.STEP` answers a next state unless a retire's address is refused. -/
theorem rspStep_total {s : State} (h : refusesAddr s s.rsp.capAdr = false) : ∃ t, rspStep s = .next t := by
  unfold rspStep
  split
  · split
    · split <;> exact ⟨_, rfl⟩
    · exact ⟨_, rfl⟩
  · exact ⟨_, retireRead_of_readable h⟩
  · exact ⟨_, retireWrite_of_readable h⟩

/-- `RSP.STEP` touches the responder, the map and the events only. -/
theorem rspStep_frame {s t : State} (h : rspStep s = .next t) :
    t.clk = s.clk ∧ t.run = s.run ∧ t.cfg = s.cfg ∧ t.env = s.env ∧
    t.diag.sinkOpen = s.diag.sinkOpen ∧ t.diag.finalized = s.diag.finalized ∧
    t.mm.defaultValue = s.mm.defaultValue ∧ t.mm.littleEndian = s.mm.littleEndian ∧
    t.mm.logStores = s.mm.logStores := by
  have hm := memWriteMasked_attributes s.rsp.capAdr s.rsp.capSel s.rsp.capDat s
  have hd := memWriteMasked_diag s.rsp.capAdr s.rsp.capSel s.rsp.capDat s
  rcases rspStep_eq_next h with ⟨-, -, rfl⟩ | ⟨-, -, -, rfl⟩ | ⟨-, -, -, rfl⟩ | ⟨-, -, rfl⟩ | ⟨-, -, rfl⟩ <;>
    simp [idleHold, acceptRead, acceptWrite, hm, hd]

/-- `RSP.STEP` keeps the memory in its form. -/
theorem rspStep_memoryInv {s t : State} (h : rspStep s = .next t) (hi : MemoryInv s.mm) : MemoryInv t.mm := by
  rcases rspStep_eq_next h with ⟨-, -, rfl⟩ | ⟨-, -, -, rfl⟩ | ⟨-, -, -, rfl⟩ | ⟨-, -, rfl⟩ | ⟨-, -, rfl⟩ <;>
    simp only [idleHold, acceptRead, acceptWrite, setResponder_mm]
  · exact hi
  · exact hi
  · exact hi
  · exact hi
  · exact memWriteMasked_memoryInv _ _ _ hi

end Sys2Proof.Machine
end

