-- ==== Sys2Proof/Laws/PerInstr.lean ====
section
/-! SUPPORT. Statements about every operation as syntax, one lemma a constructor. -/

namespace Sys2Proof.Laws.EncodeLength

/-- An operation is encoded in its format's whole bytes and within its format's bits
(30_encoding.md R60). -/
def Statement (i : Instr) : Prop :=
  (encode i).length = i.format.bytes ∧ encodeBits i < 2 ^ i.format.width

theorem nopNoCyc (stb we : Bool) (sel : LaneSel) (adr wdata : Word) : Statement (.nopNoCyc stb we sel adr wdata) :=
  ⟨rfl, (reqWord false stb we sel adr wdata).isLt⟩
theorem nopNoStb (we : Bool) (sel : LaneSel) (adr wdata : Word) : Statement (.nopNoStb we sel adr wdata) :=
  ⟨rfl, (reqWord true false we sel adr wdata).isLt⟩
theorem read (sel : LaneSel) (adr wdata : Word) : Statement (.read sel adr wdata) :=
  ⟨rfl, (reqWord true true false sel adr wdata).isLt⟩
theorem write (sel : LaneSel) (adr wdata : Word) : Statement (.write sel adr wdata) :=
  ⟨rfl, (reqWord true true true sel adr wdata).isLt⟩
theorem idleHoldNoCyc (stb we : Bool) : Statement (.idleHoldNoCyc stb we) :=
  ⟨rfl, (dispatchWord 0b00#2 false stb we).isLt⟩
theorem idleHoldNoStb (we : Bool) : Statement (.idleHoldNoStb we) :=
  ⟨rfl, (dispatchWord 0b00#2 true false we).isLt⟩
theorem acceptRead : Statement .acceptRead := ⟨rfl, (dispatchWord 0b00#2 true true false).isLt⟩
theorem acceptWrite : Statement .acceptWrite := ⟨rfl, (dispatchWord 0b00#2 true true true).isLt⟩
theorem retireRead (cyc stb we : Bool) : Statement (.retireRead cyc stb we) :=
  ⟨rfl, (dispatchWord 0b01#2 cyc stb we).isLt⟩
theorem retireWrite (cyc stb we : Bool) : Statement (.retireWrite cyc stb we) :=
  ⟨rfl, (dispatchWord 0b10#2 cyc stb we).isLt⟩
theorem reservedSt3 (cyc stb we : Bool) : Statement (.reservedSt3 cyc stb we) :=
  ⟨rfl, (dispatchWord 0b11#2 cyc stb we).isLt⟩
theorem ph0 : Statement .ph0 := ⟨rfl, by decide⟩
theorem ph1 : Statement .ph1 := ⟨rfl, by decide⟩
theorem ph2 : Statement .ph2 := ⟨rfl, by decide⟩
theorem ph3 : Statement .ph3 := ⟨rfl, by decide⟩

end Sys2Proof.Laws.EncodeLength
end

