-- ==== Sys2Proof/Laws/Step.lean ====
section
/-! SUPPORT. What a tick selects, and everything a step can do. -/

namespace Sys2Proof.Machine

/-- Step 1 of a tick is `CLK.ADVANCE`: the phase the counter enters is the one that is run. -/
theorem clockStep_eq (s : State) : clockStep s = .next (clkAdvance s) := by
  have h : ∀ i : Fin 4, ∀ t : State,
      exec (decodePhase (BitVec.ofNat 2 i.val)) t = .next (drivePhase i.val t) := by
    intro i t
    have : i = 0 ∨ i = 1 ∨ i = 2 ∨ i = 3 := by omega
    rcases this with rfl | rfl | rfl | rfl <;> rfl
  exact h ⟨(s.clk.tick + 1) % 4, by omega⟩ (countTick s)

/-- The micro-operation that the dispatch word selects does what `RSP.STEP` says. -/
theorem exec_stepInstr (s : State) : exec (stepInstr s) s = rspStep s := by
  unfold stepInstr stepWord rspStep
  cases s.rsp.st <;> cases s.env.sampled.cyc <;> cases s.env.sampled.stb <;> cases s.env.sampled.we <;> rfl

@[simp] theorem isBoundary_evaluated (s : State) :
    isBoundary (evaluateDevice (clkAdvance s)) = nextIsBoundary s := by
  simp [isBoundary, nextIsBoundary, clkAdvance]

/-- A tick that is no boundary tick. -/
theorem drvTick_between {s : State} (h : nextIsBoundary s = false) :
    drvTick s = .next (testTermination (traceTick (evaluateDevice (clkAdvance s)))) := by
  simp [drvTick, clockStep_eq, sampleStep, h]

/-- A boundary tick: `RSP.STEP`, then the reset rule, the counter, the heartbeat, the trace and the
termination test. -/
theorem drvTick_boundary {s : State} (h : nextIsBoundary s = true) :
    drvTick s = andThen (rspStep (evaluateDevice (clkAdvance s)))
      (fun u => .next (testTermination (traceTick (afterResponder u)))) := by
  simp only [drvTick, clockStep_eq, andThen_of_next, sampleStep, isBoundary_evaluated, h, if_true, boundaryStep,
    exec_stepInstr]
  cases rspStep (evaluateDevice (clkAdvance s)) <;> rfl

/-- Everything a step can do when it answers a next state. -/
theorem step_eq_next {s t : State} (h : step s = .next t) :
    (terminated s = true ∧ t = afterRun s) ∨
    (terminated s = false ∧ nextIsBoundary s = false ∧
      t = testTermination (traceTick (evaluateDevice (clkAdvance s)))) ∨
    (terminated s = false ∧ nextIsBoundary s = true ∧
      ∃ u, rspStep (evaluateDevice (clkAdvance s)) = .next u ∧
        t = testTermination (traceTick (afterResponder u))) := by
  unfold step at h
  cases ht : terminated s with
  | true =>
    simp only [ht, if_true, Host.Outcome.next.injEq] at h
    exact .inl ⟨rfl, h.symm⟩
  | false =>
    simp only [ht, Bool.false_eq_true, if_false] at h
    cases hb : nextIsBoundary s with
    | false =>
      rw [drvTick_between hb] at h
      exact .inr (.inl ⟨rfl, rfl, (Host.Outcome.next.inj h).symm⟩)
    | true =>
      rw [drvTick_boundary hb] at h
      obtain ⟨u, h1, h2⟩ := andThen_eq_next h
      exact .inr (.inr ⟨rfl, rfl, u, h1, (Host.Outcome.next.inj h2).symm⟩)

@[simp] theorem clkAdvance_clk (s : State) :
    (clkAdvance s).clk =
      { tick := s.clk.tick + 1
        clk1x := (tableEntry s.cfg.phaseTable ((s.clk.tick + 1) % 4)).clk1x
        clk2x := (tableEntry s.cfg.phaseTable ((s.clk.tick + 1) % 4)).clk2x } := by
  simp [clkAdvance]

@[simp] theorem clkAdvance_mm (s : State) : (clkAdvance s).mm = s.mm := by simp [clkAdvance]
@[simp] theorem clkAdvance_rsp (s : State) : (clkAdvance s).rsp = s.rsp := by simp [clkAdvance]
@[simp] theorem clkAdvance_run (s : State) : (clkAdvance s).run = s.run := by simp [clkAdvance]
@[simp] theorem clkAdvance_cfg (s : State) : (clkAdvance s).cfg = s.cfg := by simp [clkAdvance]
@[simp] theorem clkAdvance_diag (s : State) : (clkAdvance s).diag = s.diag := by simp [clkAdvance]
@[simp] theorem clkAdvance_env (s : State) : (clkAdvance s).env = s.env := by simp [clkAdvance]

@[simp] theorem afterResponder_mm (s : State) : (afterResponder s).mm = s.mm := by simp [afterResponder]
@[simp] theorem afterResponder_rsp (s : State) : (afterResponder s).rsp = s.rsp := by simp [afterResponder]
@[simp] theorem afterResponder_clk (s : State) : (afterResponder s).clk = s.clk := by simp [afterResponder]
@[simp] theorem afterResponder_cfg (s : State) : (afterResponder s).cfg = s.cfg := by simp [afterResponder]
@[simp] theorem afterResponder_env (s : State) : (afterResponder s).env = s.env := by simp [afterResponder]
@[simp] theorem afterResponder_run (s : State) :
    (afterResponder s).run =
      { s.run with
        cycle := s.run.cycle + 1
        resetLine := resetAfter s.run.cycle s.cfg.resetCycle s.run.resetLine } := by
  simp [afterResponder]

@[simp] theorem heartbeat_sink (s : State) : (heartbeat s).diag.sinkOpen = s.diag.sinkOpen ∧
    (heartbeat s).diag.finalized = s.diag.finalized := by
  exact ⟨rfl, rfl⟩

@[simp] theorem traceTick_sink (s : State) : (traceTick s).diag.sinkOpen = s.diag.sinkOpen ∧
    (traceTick s).diag.finalized = s.diag.finalized := by
  exact ⟨rfl, rfl⟩

@[simp] theorem afterResponder_sink (s : State) : (afterResponder s).diag.sinkOpen = s.diag.sinkOpen ∧
    (afterResponder s).diag.finalized = s.diag.finalized := by
  simp [afterResponder]

/-- The heartbeat appends at most its own event. -/
theorem heartbeat_diag (s : State) :
    (heartbeat s).diag = { s.diag with
      events := (if heartbeatDue s.run.cycle s.cfg.hbCycles then [Event.heartbeat s.run.cycle] else []) ++ s.diag.events } := by
  unfold heartbeat emitIf; split <;> rfl

/-- The trace appends at most its own event. -/
theorem traceTick_diag (s : State) :
    (traceTick s).diag = { s.diag with
      events := (if s.cfg.traceEnabled then [Event.trace s.clk.tick] else []) ++ s.diag.events } := by
  unfold traceTick emitIf; split <;> rfl

theorem evaluateDevice_scripted {s : State} {o : Lines} {rest : List Lines} (h : s.env.script = o :: rest) :
    (evaluateDevice s).env = { s.env with sampled := o, script := rest } := by
  unfold evaluateDevice; rw [h]

theorem evaluateDevice_free {s : State} (h : s.env.script = []) :
    (evaluateDevice s).env =
      { s.env with
        sampled := (Config.evaluate s.env.dutState (driven s)).2
        dutState := (Config.evaluate s.env.dutState (driven s)).1 } := by
  unfold evaluateDevice; rw [h]

/-- A bus command's execution is `RSP.STEP` on the lines it presents, and amounts to the
micro-operation those lines select. -/
theorem exec_req {i : Instr} (h : i.format = .req) (s : State) :
    ∃ o : Lines, exec i s = rspStep (present o s) ∧ microOp i s = stepInstr (present o s) := by
  cases i <;> simp [Instr.format] at h
  all_goals exact ⟨_, rfl, rfl⟩

/-- A step of a run that has not ended leaves the clocks as `CLK.ADVANCE` does. -/
theorem step_clk {s t : State} (ht : terminated s = false) (h : step s = .next t) : t.clk = (clkAdvance s).clk := by
  rcases step_eq_next h with ⟨h1, -⟩ | ⟨-, -, rfl⟩ | ⟨-, -, u, hu, rfl⟩
  · simp_all
  · simp
  · have := rspStep_frame hu; simp [this]

/-- The last of `k + 1` steps is a step. -/
theorem stepN_succ (k : Nat) (s : State) : stepN (k + 1) s = andThen (stepN k s) step := by
  induction k generalizing s with
  | zero =>
    show andThen (step s) (fun s => .next s) = step s
    cases step s <;> rfl
  | succ k ih =>
    rw [stepN]
    conv => rhs; rw [stepN]
    cases hs : step s with
    | next t => simp only [andThen_of_next]; exact ih t
    | fault f => rfl
    | refused r => rfl

end Sys2Proof.Machine
end

