-- ==== Sys2Proof/Tests/Slice0.lean ====
section
/-! SUPPORT. The model's own tests. Expected values are those of spec/95_test_vectors.md (vector V<n>,
program P<n>) or are computed by hand from the cited rule; the witnesses show that the hypotheses of
each statement can be met. -/

namespace Sys2Proof.Tests

open Sys2Proof Sys2Proof.Machine

/-! ### Helpers -/

/-- What a reading of the next state gives, if there is one. -/
def got {α : Type} (o : Host.Outcome State Fault Refusal) (f : State → α) : Option α :=
  match o with
  | .next s => some (f s)
  | .fault _ => none
  | .refused _ => none

/-- Why an outcome is a refusal, if it is one. -/
def refusal (o : Host.Outcome State Fault Refusal) : Option Refusal :=
  match o with
  | .next _ => none
  | .fault _ => none
  | .refused r => some r

/-- What a number's bytes decode to in a format, if anything. -/
def reads (f : Format) (w : Nat) : Option Instr :=
  match decode f (natToBytes f.bytes w) with
  | .ok i => some i
  | .error _ => none

/-- Why a byte string is not decoded. -/
def rejects (f : Format) (bs : List Byte) : Option DecodeError :=
  match decode f bs with
  | .ok _ => none
  | .error e => some e

def params : Params :=
  { resetCycle := 1, threadRunCycle := 0, runCycles := 8, hbCycles := 0, image := none, imageBase := 0#32
    defaultValue := 0xDEADBEEF#32, littleEndian := false, logStores := false
    phaseTable := Config.defaultPhaseTable, boundaryIndex := 0, rdataInit := 0x0BADF00D#32
    addrMode := .mask, traceEnabled := true }

def idleLines : Lines := controlLines false false false
def readLines (a : Word) : Lines := requestLines true true false 0#4 a 0#32
def writeLines (a d : Word) (s : LaneSel) : Lines := requestLines true true true s a d

def draws : Draws :=
  { capAdr := 0x11#32, capDat := 0x22#32, capSel := 0x5#4, clk1x := true, clk2x := true, sampled := idleLines }

/-- A machine after construction, map empty. -/
def base : State := State.construct params draws

/-- One mapped word. -/
def holding (a w : Word) (s : State) : State := storeWord a w s

/-- The responder in a given state with given captures. -/
def inState (st : RspState) (a d : Word) (sel : LaneSel) (s : State) : State :=
  setResponder { s.rsp with st := st, capAdr := a, capDat := d, capSel := sel } s

/-- Acknowledge 1. -/
def acked (s : State) : State := setResponder { s.rsp with ack := true } s

/-- A given tick count, the counter following it. -/
def atTick (n : Nat) (s : State) : State :=
  { s with clk := { s.clk with tick := n }, run := { s.run with cycle := n / 4 } }

def refusing (s : State) : State := { s with cfg := { s.cfg with addrMode := .refuse } }
def scripted (os : List Lines) (s : State) : State := { s with env := { s.env with script := os } }
def tabled (p : PhaseTable) (s : State) : State := { s with cfg := { s.cfg with phaseTable := p } }

/-! ### Well-formedness: what the check refuses -/

theorem test_wf_refuses_reserved : (Instr.reservedSt3 false true false).wellFormed = false := by decide
theorem test_wf_accepts_read : (Instr.read 0#4 0x7#32 0#32).wellFormed = true := by decide

/-- A 1x column that never changes, and one that changes four times (R103). -/
theorem test_wf_refuses_bad_1x :
    PhaseTable.clk1xTwice ⟨⟨true, true⟩, ⟨true, false⟩, ⟨true, true⟩, ⟨true, false⟩⟩ = false ∧
    PhaseTable.clk1xTwice ⟨⟨true, true⟩, ⟨false, false⟩, ⟨true, true⟩, ⟨false, false⟩⟩ = false := by decide
/-- A 2x column that changes twice only (R103). -/
theorem test_wf_refuses_bad_2x :
    PhaseTable.clk2xAlways ⟨⟨true, true⟩, ⟨true, true⟩, ⟨false, false⟩, ⟨false, false⟩⟩ = false := by decide
theorem test_wf_default_table : Config.defaultPhaseTable.legal = true := by decide
theorem test_wf_refuses_params :
    Params.legal { params with phaseTable := ⟨⟨true, true⟩, ⟨true, true⟩, ⟨true, true⟩, ⟨true, true⟩⟩ } = false := by
  decide

def bitPairs : List ClockBits := [⟨false, false⟩, ⟨false, true⟩, ⟨true, false⟩, ⟨true, true⟩]
def allTables : List PhaseTable :=
  bitPairs.flatMap fun a => bitPairs.flatMap fun b => bitPairs.flatMap fun c => bitPairs.map fun d => ⟨a, b, c, d⟩
/-- R103: "exactly 24 legal tables". -/
theorem test_wf_24_tables : (allTables.filter PhaseTable.legal).length = 24 := by decide

/-! ### Decoding: words written out from the rows of 30_encoding.md R61, R63, R65 -/

/-- V22: bit 70 = 0; `stb`, `we` at bits 69, 68; address `0x100` at 63:32, data 5. -/
theorem test_decode_nop_no_cyc : reads .req 0x300000010000000005 = some (.nopNoCyc true true 0#4 0x100#32 5#32) := by decide
/-- V21: bits 70:68 = `101`. -/
theorem test_decode_nop_no_stb :
    reads .req 0x5FFFFFFFFFFFFFFFFF = some (.nopNoStb true 0xF#4 0xFFFFFFFF#32 0xFFFFFFFF#32) := by decide
/-- V23: bits 70:68 = `110`. -/
theorem test_decode_read : reads .req 0x600000010000000000 = some (.read 0#4 0x100#32 0#32) := by decide
/-- P2: bits 70:68 = `111`, `sel` = 8 at 67:64. -/
theorem test_decode_write : reads .req 0x780000100099887766 = some (.write 0x8#4 0x1000#32 0x99887766#32) := by decide
/-- V22: `00 011`. -/
theorem test_decode_idle_hold_no_cyc : reads .step 0b00011 = some (.idleHoldNoCyc true true) := by decide
/-- V21: `00 101`. -/
theorem test_decode_idle_hold_no_stb : reads .step 0b00101 = some (.idleHoldNoStb true) := by decide
theorem test_decode_accept_read : reads .step 0b00110 = some .acceptRead := by decide
theorem test_decode_accept_write : reads .step 0b00111 = some .acceptWrite := by decide
/-- V28: `01 111`. -/
theorem test_decode_retire_read : reads .step 0b01111 = some (.retireRead true true true) := by decide
/-- Row `10 xxx`, lines `010`. -/
theorem test_decode_retire_write : reads .step 0b10010 = some (.retireWrite false true false) := by decide
/-- Row `11 xxx`, lines `100`. -/
theorem test_decode_reserved : reads .step 0b11100 = some (.reservedSt3 true false false) := by decide
theorem test_decode_phases :
    reads .phase 0b00 = some .ph0 ∧ reads .phase 0b01 = some .ph1 ∧
    reads .phase 0b10 = some .ph2 ∧ reads .phase 0b11 = some .ph3 := by decide
theorem test_decode_rejects_length : rejects .req [0#8, 0#8] = some .wrongLength := by decide
theorem test_decode_rejects_padding :
    rejects .step [0x20#8] = some .paddingSet ∧ rejects .phase [0x04#8] = some .paddingSet ∧
    rejects .req [0#8, 0#8, 0#8, 0#8, 0#8, 0#8, 0#8, 0#8, 0x80#8] = some .paddingSet := by decide
/-- The table's own words through the host's door; eight bits below 4 are read as PHASE (log entry 2). -/
theorem test_table_words :
    decodeTableWord 72 0x7F0000010011223344 = some (.write 0xF#4 0x100#32 0x11223344#32) ∧
    decodeTableWord 8 0b00110 = some .acceptRead ∧ decodeTableWord 8 0b10 = some .ph2 ∧
    decodeTableWord 5 0b00010 = some (.idleHoldNoCyc true false) ∧ decodeTableWord 24 0 = none ∧
    decodeTableWord 72 0x800000000000000000 = none := by decide

/-! ### Memory and image vectors -/

/-- V1: unmapped words read as the default. -/
theorem test_read_unmapped : memRead base 0#32 = 0xDEADBEEF#32 ∧ memRead base 0xFFFFFFFC#32 = 0xDEADBEEF#32 := by decide
/-- V3, V4: bits [1:0] are dropped. -/
theorem test_write_word_masks_address :
    (memWriteWord 0x1003#32 7#32 base).mm.mapped = [0x1000] ∧
    memRead (holding 4#32 2#32 base) 7#32 = 2#32 ∧ memRead (holding 4#32 2#32 base) 8#32 = 0xDEADBEEF#32 := by decide
/-- V9: the lanes of the contract, not of the defect. -/
theorem test_masked_middle_lanes :
    memRead (memWriteMasked 0x1000#32 0b0110#4 0x99887766#32 (holding 0x1000#32 0xAABBCCDD#32 base)) 0x1000#32
      = 0xAA8877DD#32 := by decide
/-- V10: an unmapped word keeps the default's bytes and becomes mapped. -/
theorem test_masked_unmapped :
    memRead (memWriteMasked 0x1008#32 0b0110#4 0x99887766#32 base) 0x1008#32 = 0xDE8877EF#32 ∧
    (memWriteMasked 0x1008#32 0b0110#4 0x99887766#32 base).mm.mapped = [0x1008] := by decide
/-- V11: the store log of a masked write. -/
theorem test_masked_log :
    (memWriteMasked 0x1000#32 0b0011#4 0x99887766#32
      (let s := holding 0x1000#32 0xAABBCCDD#32 base
       { s with mm := { s.mm with logStores := true } })).diag.events
      = [.storeLog 0x1000#32 0xAABBCCDD#32 0xAABB7766#32] := by decide
/-- V12: all sixteen byte-enables, `0000` to `1111`. -/
theorem test_lane_masks :
    (List.range 16).map (fun n => mergeLanes (BitVec.ofNat 4 n) 0xAABBCCDD#32 0x99887766#32) =
      [0xAABBCCDD#32, 0xAABBCC66#32, 0xAABB77DD#32, 0xAABB7766#32, 0xAA88CCDD#32, 0xAA88CC66#32, 0xAA8877DD#32,
        0xAA887766#32] ++
      [0x99BBCCDD#32, 0x99BBCC66#32, 0x99BB77DD#32, 0x99BB7766#32, 0x9988CCDD#32, 0x9988CC66#32, 0x998877DD#32,
        0x99887766#32] := by decide
/-- 20_memory.md R44: byte `A+1` is bits 23:16, and writing the default's byte back unlists it. -/
theorem test_bytes_and_canonical_form :
    memByte (holding 0x1000#32 0xAABBCCDD#32 base) 0x1001#32 = 0xBB#8 ∧
    (holding 0x1000#32 0xDEAD0000#32 base).mm.cells = [(0x1002, 0#8), (0x1003, 0#8)] := by decide

def imageV15 : List Char := ['0', '0', '0', '0', '0', '0', '0', '1', ' ', 'z', 'z', ' ', '3']
def imageV16 : List Char := ['1', ' ', 'f', 'f', '\n', 'D', 'e', 'a', 'd', 'B', 'e', 'e', 'f']
def imageV17 : List Char := ['0', 'x', '1', '0', ' ', '2']
def imageV18 : List Char := ['1', '2', '3', '4', '5', '6', '7', '8', '9', ' ', '5']
def imageV19 : List Char := ['1', ' ', '2', ' ', '3']

/-- V15: the load stops at the bad token. -/
theorem test_image_stops : got (memLoadImage (some imageV15) 0#32 base) (fun s => (s.mm.mapped, memRead s 0#32))
    = some ([0], 1#32) := by decide
/-- V16: short tokens, both cases. -/
theorem test_image_words : got (memLoadImage (some imageV16) 0x10#32 base)
    (fun s => (s.mm.mapped, memRead s 0x10#32, memRead s 0x14#32, memRead s 0x18#32))
    = some ([0x10, 0x14, 0x18], 1#32, 0xFF#32, 0xDEADBEEF#32) := by decide
/-- V17, V18, V19a, V19c: nothing is loaded. -/
theorem test_image_nothing :
    got (memLoadImage (some imageV17) 0#32 base) (fun s => s.mm.mapped) = some [] ∧
    got (memLoadImage (some imageV18) 0#32 base) (fun s => s.mm.mapped) = some [] ∧
    got (memLoadImage (some [' ', '\t', '\n']) 0#32 base) (fun s => s.mm.mapped) = some [] ∧
    got (memLoadImage none 0#32 base) (fun s => s.mm.mapped) = some [] := by decide
/-- V19, V19b: addresses wrap; a base that is not aligned is masked. -/
theorem test_image_wraps :
    got (memLoadImage (some imageV19) 0xFFFFFFF8#32 base) (fun s => (s.mm.mapped, memRead s 0#32))
      = some ([0, 0xFFFFFFF8, 0xFFFFFFFC], 3#32) ∧
    got (memLoadImage (some ['7']) 0x2002#32 base) (fun s => (s.mm.mapped, memRead s 0x2000#32))
      = some ([0x2000], 7#32) := by decide

/-! ### Micro-operations, bus commands, phases -/

/-- V20. -/
theorem test_idle_hold_no_cyc :
    got (exec (.idleHoldNoCyc false false) (acked base)) (fun t => (t.rsp.st, t.rsp.ack)) = some (.idle, false) := by decide
/-- V21: nothing is captured. -/
theorem test_idle_hold_no_stb :
    got (exec (.nopNoStb true 0xF#4 0xFFFFFFFF#32 0xFFFFFFFF#32) base) (fun t => t.rsp) = some base.rsp ∧
    got (exec (.idleHoldNoStb true) (acked base)) (fun t => t.rsp) = some base.rsp := by decide
/-- V22: `stb` without `cyc`. -/
theorem test_nop_no_cyc :
    got (exec (.nopNoCyc true true 0#4 0x100#32 5#32) (acked base)) (fun t => t.rsp) = some base.rsp := by decide
/-- V23. -/
theorem test_accept_read :
    got (exec .acceptRead (present (readLines 0x100#32) base)) (fun t => (t.rsp.st, t.rsp.capAdr, t.rsp.capDat, t.rsp.ack))
      = some (.readPending, 0x100#32, 0x22#32, false) := by decide
/-- V24. -/
theorem test_accept_write :
    got (exec .acceptWrite (present (writeLines 0x100#32 0x11223344#32 0xF#4) (acked base)))
      (fun t => (t.rsp, t.mm.mapped))
      = some (⟨.writePending, 0x100#32, 0x11223344#32, 0xF#4, false, 0x0BADF00D#32⟩, []) := by decide
/-- V28: the lines are not sampled. -/
theorem test_retire_read :
    got (exec (.write 0xF#4 0x8#32 0xCAFEF00D#32) (inState .readPending 4#32 0#32 0#4 (holding 4#32 2#32 base)))
      (fun t => (t.rsp.st, t.rsp.capAdr, t.rsp.rdata, t.rsp.ack, t.mm.mapped))
      = some (.idle, 4#32, 2#32, true, [4]) := by decide
/-- V29: an unmapped address. -/
theorem test_retire_read_unmapped :
    got (exec (.retireRead false false false) (inState .readPending 0x2000#32 0#32 0#4 base))
      (fun t => (t.rsp.st, t.rsp.rdata, t.rsp.ack, t.mm.mapped)) = some (.idle, 0xDEADBEEF#32, true, []) := by decide
/-- V26: two lanes. -/
theorem test_retire_write :
    got (exec (.retireWrite false false false)
        (inState .writePending 0x100#32 0x99887766#32 0b0011#4 (holding 0x100#32 0x11223344#32 base)))
      (fun t => (t.rsp.st, t.rsp.ack, t.rsp.rdata, memRead t 0x100#32))
      = some (.idle, true, 0x0BADF00D#32, 0x11227766#32) := by decide
/-- V27: byte-enable zero. -/
theorem test_retire_write_no_lane :
    got (exec (.retireWrite false false false) (inState .writePending 0x100#32 0x55555555#32 0#4 base))
      (fun t => (t.rsp.st, t.rsp.ack, t.mm.mapped)) = some (.idle, true, []) := by decide
/-- P3, boundaries 9 and 10: `key(0x7) = 0x4`; with `ADDR_MODE = refuse` the retire is refused. -/
theorem test_unaligned :
    got (exec (.nopNoCyc false false 0#4 0#32 0#32) (inState .readPending 7#32 0#32 0#4 (holding 4#32 2#32 base)))
      (fun t => t.rsp.rdata) = some 2#32 ∧
    refusal (exec (.nopNoCyc false false 0#4 0#32 0#32) (refusing (inState .readPending 7#32 0#32 0#4 base)))
      = some .unalignedAddress := by decide
theorem test_reserved : refusal (exec (.reservedSt3 true true true) base) = some .reservedState := by decide
/-- V32a: a table that is not the default, and `PH0` to `PH3` on it. -/
theorem test_phases :
    let s := tabled ⟨⟨false, false⟩, ⟨false, true⟩, ⟨true, false⟩, ⟨true, true⟩⟩ base
    got (exec .ph0 s) (fun t => (t.clk.clk1x, t.clk.clk2x)) = some (false, false) ∧
    got (exec .ph1 s) (fun t => (t.clk.clk1x, t.clk.clk2x)) = some (false, true) ∧
    got (exec .ph2 s) (fun t => (t.clk.clk1x, t.clk.clk2x)) = some (true, false) ∧
    got (exec .ph3 s) (fun t => (t.clk.clk1x, t.clk.clk2x)) = some (true, true) := by decide

/-! ### Ticks -/

/-- V30, ticks 1 to 4, and V31: the tick of index 0 is the boundary. -/
theorem test_clock_ticks :
    ([0, 1, 2, 3, 7].map fun n => (clkAdvance (atTick n base)).clk) =
      [⟨1, true, false⟩, ⟨2, false, true⟩, ⟨3, false, false⟩, ⟨4, true, true⟩, ⟨8, true, true⟩] ∧
    ([0, 1, 2, 3, 7].map fun n => isBoundary (clkAdvance (atTick n base))) = [false, false, false, true, true] := by
  decide
/-- P1, tick 12: the write is accepted, reset is 0 after boundary 1, the counter becomes 3. -/
theorem test_boundary_tick :
    got (step (scripted [writeLines 0x100#32 0x11223344#32 0xF#4] (atTick 11 base)))
      (fun t => (t.rsp.st, t.run.cycle, t.run.resetLine, t.clk.tick)) = some (.writePending, 3, false, 12) := by decide
/-- P1, boundary 0 (tick 4): `RESET_CYCLE = 1`, so reset stays 1. -/
theorem test_reset_stays :
    got (step (scripted [idleLines] (atTick 3 base))) (fun t => (t.run.resetLine, t.run.cycle)) = some (true, 1) := by decide
/-- V35: `done` on tick 6, no boundary. -/
theorem test_done_between_boundaries :
    got (step (scripted [{ idleLines with done := true }] (atTick 5 base)))
      (fun t => (t.run.termDone, t.run.termOverrun, t.run.cycle, t.clk.tick)) = some (true, false, 1, 6) := by decide
/-- V37: the boundary of the last tick is performed before the run ends. -/
theorem test_done_on_boundary :
    got (step (scripted [{ idleLines with done := true }]
        (inState .writePending 0x20#32 0xAAAAAAAA#32 0xF#4 (atTick 7 base))))
      (fun t => (t.run.termDone, t.rsp.st, t.rsp.ack, memRead t 0x20#32)) = some (true, .idle, true, 0xAAAAAAAA#32) := by
  decide
/-- V38: both flags on one tick (`RUN_CYCLES = 8` here: boundary of cycle 8, tick 36). -/
theorem test_both_flags :
    got (step (scripted [{ idleLines with done := true }] (atTick 35 base)))
      (fun t => (t.run.termDone, t.run.termOverrun, t.run.cycle)) = some (true, true, 9) := by decide
/-- V39: `Heartbeat(2)` at tick 8 with `HB_CYCLES = 2`; the trace of the tick follows it (R141). -/
theorem test_heartbeat :
    got (step (scripted [idleLines] { atTick 7 base with cfg := { params with hbCycles := 2 } }))
      (fun t => t.diag.events) = some [.trace 8, .heartbeat 2] := by decide
/-- R152: after the end the sink is closed and the device finalized, and nothing more. -/
theorem test_close :
    let s := { base with run := { base.run with termDone := true } }
    got (step s) (fun t => (t.diag.sinkOpen, t.diag.finalized, t.clk.tick)) = some (false, true, 0) ∧
    got (stepN 2 s) (fun t => t.diag) = got (step s) (fun t => t.diag) := by decide
/-- R32: what reset leaves, where the spec states it. -/
theorem test_reset_state :
    State.reset.mm.mapped = [] ∧ State.reset.rsp.ack = false ∧ State.reset.run.resetLine = true ∧
    State.reset.clk.tick = 0 ∧ State.reset.run.cycle = 0 := ⟨rfl, rfl, rfl, rfl, rfl⟩

/-! ### Placed words run first after reset -/

theorem test_placed_requests :
    got (step (State.reset.withFetchWord 72 0x600000010000000000)) (fun t => (t.rsp.st, t.rsp.capAdr, t.rsp.ack))
      = some (.readPending, 0x100#32, false) ∧
    got (step (State.reset.withFetchWord 72 0x7F0000010011223344)) (fun t => (t.rsp.st, t.rsp.capDat, t.rsp.capSel))
      = some (.writePending, 0x11223344#32, 0xF#4) := ⟨rfl, rfl⟩
theorem test_placed_micro_operations :
    got (step (State.reset.withFetchWord 8 0b01000)) (fun t => (t.rsp.st, t.rsp.ack)) = some (.idle, true) ∧
    got (step (State.reset.withFetchWord 8 0b10000)) (fun t => (t.rsp.st, t.rsp.ack)) = some (.idle, true) := ⟨rfl, rfl⟩
theorem test_placed_phases :
    got (step (State.reset.withFetchWord 8 0b01)) (fun t => t.clk) = some ⟨1, true, false⟩ ∧
    got (step (State.reset.withFetchWord 8 0b11)) (fun t => t.clk) = some ⟨3, false, false⟩ := ⟨rfl, rfl⟩

/-! ### Witnesses: states that meet the hypotheses of the statements -/

theorem witness_EncodeOfDecode : decode .step [0b00110#8] = .ok .acceptRead := rfl

theorem witness_BootValues_no_image : params.image = none ∨ params.addrMode = .mask ∨ aligned params.imageBase = true := .inl rfl
theorem witness_BootValues_masked :
    let p : Params := { params with image := some imageV16, imageBase := 2#32 }
    p.image = none ∨ p.addrMode = .mask ∨ aligned p.imageBase = true := .inr (.inl rfl)
theorem witness_BootValues_aligned :
    let p : Params := { params with image := some imageV16, addrMode := .refuse, imageBase := 0x1000#32 }
    p.image = none ∨ p.addrMode = .mask ∨ aligned p.imageBase = true := .inr (.inr rfl)

/-- The clauses of `BootValues` on memory: an image that maps keys, and an address outside it. -/
theorem witness_BootValues_memory :
    let p : Params := { params with image := some imageV16, imageBase := 0x12#32 }
    got (boot p draws) (fun s => (s.mm.mapped, decide ((key 0x1C#32).toNat ∉ s.mm.mapped), memRead s 0x1C#32)) =
      some ([0x10, 0x14, 0x18], true, 0xDEADBEEF#32) ∧
    (parsedWords (tokens imageV16)).length ≤ 2 ^ 30 ∧
    (parsedWords (tokens imageV16))[2]? = some 0xDEADBEEF#32 := by decide
/-- Whitespace, a token, whitespace after it, and the token's digits in both cases. -/
theorem witness_ImageTokenGrammar :
    (∀ c ∈ ['\t', Char.ofNat 11], c ∈ imageSpaces) ∧ (['f', 'F'] : List Char) ≠ [] ∧
    (∀ c ∈ ['f', 'F'], c ∉ imageSpaces) ∧ Char.ofNat 12 ∈ imageSpaces ∧
    List.Forall₂ writesDigit ['f', 'F'] [15, 15] ∧ (0xFF#32).toNat = [15, 15].foldl (fun v d => 16 * v + d) 0 :=
  ⟨by simp [imageSpaces], by decide, by simp [imageSpaces], by simp [imageSpaces], .cons (.inl rfl) (.cons (.inr rfl) .nil), by decide⟩
/-- R68: eight digits of both cases; another character, a sign and a ninth digit are unparseable. -/
theorem test_token_lengths :
    parseToken ['0', '1', '2', '3', 'a', 'B', 'c', 'F'] = some 0x0123ABCF#32 ∧ parseToken ['g'] = none ∧
    parseToken ['-', '1'] = none ∧ parseToken ['0', '0', '0', '0', '0', '0', '0', '0', '1'] = none := by decide
theorem witness_UnmappedReads :
    let s := inState .readPending 0x2003#32 0#32 0#4 base
    (key s.rsp.capAdr).toNat ∉ s.mm.mapped ∧ (s.cfg.addrMode = .mask ∨ aligned s.rsp.capAdr = true) ∧
    key 0x2003#32 = key 0x2000#32 := by decide

/-- Also the clause on other words, at the word after the last one. -/
theorem witness_ImageLoadWritesItsWords :
    (base.cfg.addrMode = .mask ∨ aligned 0x10#32 = true) ∧ (parsedWords (tokens imageV16)).length ≤ 2 ^ 30 ∧
    (parsedWords (tokens imageV16))[2]? = some 0xDEADBEEF#32 ∧
    (∀ i < (parsedWords (tokens imageV16)).length, key 0x1C#32 ≠ key (imageAddr 0x10#32 i)) := by decide

theorem witness_LoadErrorsAreSilent : parseToken ['z', 'z'] = none ∧ parseToken [] = none := by decide

theorem witness_ZeroByteEnable_accept : (present (writeLines 0#32 1#32 0#4) base).env.sampled.sel = 0#4 := by decide
theorem witness_ZeroByteEnable_retire :
    let s := inState .writePending 0x100#32 5#32 0#4 base
    s.rsp.capSel = 0#4 ∧ (s.cfg.addrMode = .mask ∨ aligned s.rsp.capAdr = true) := by decide

/-- Both alternatives of the address premise of `RetireReadDrivesTheWord`, `RetireWriteStoresTheLanes`
and the retire rows of `TransitionTableOfTheResponder`, at boundary values. -/
theorem witness_retire_premise :
    (let s := inState .readPending 0xFFFFFFFF#32 0#32 0#4 base
     s.cfg.addrMode = .mask ∨ aligned s.rsp.capAdr = true) ∧
    (let s := refusing (inState .writePending 0xFFFFFFFC#32 0#32 0xF#4 base)
     s.cfg.addrMode = .mask ∨ aligned s.rsp.capAdr = true) := by decide

theorem witness_UnalignedRetireRefused :
    let s := refusing (inState .readPending 1#32 0#32 0#4 base)
    s.cfg.addrMode = .refuse ∧ aligned s.rsp.capAdr = false := by decide

/-! The premises of the rows of `TransitionTableOfTheResponder`; those from `Idle` are also those of
`IdleHoldOfANop` and `AcceptWriteOfARequest`. -/

theorem witness_TransitionTable_hold : base.rsp.st = .idle ∧ isRequest base.env.sampled = false := by decide
theorem witness_TransitionTable_hold_cyc :
    let s := present (requestLines true false true 0#4 0#32 0#32) base
    s.rsp.st = .idle ∧ isRequest s.env.sampled = false := by decide
theorem witness_TransitionTable_accept_read :
    let s := present (readLines 0x100#32) base
    s.rsp.st = .idle ∧ isRequest s.env.sampled = true ∧ s.env.sampled.we = false := by decide
theorem witness_TransitionTable_accept_write :
    let s := present (writeLines 0x100#32 1#32 0xF#4) base
    s.rsp.st = .idle ∧ isRequest s.env.sampled = true ∧ s.env.sampled.we = true := by decide
/-- A `WRITE` from `Idle` retires whatever the lines are then (last clause of `AcceptWriteOfARequest`). -/
theorem witness_AcceptWriteOfARequest :
    let s := present (writeLines 0x100#32 1#32 0xF#4) base
    ∃ t u v, exec (stepInstr s) s = .next t ∧ exec (stepInstr t) t = .next u ∧
      exec (stepInstr (present idleLines t)) (present idleLines t) = .next v := ⟨_, _, _, rfl, rfl, rfl⟩
theorem witness_TransitionTable_retire_read :
    let s := inState .readPending 0x100#32 0#32 0#4 base
    s.rsp.st = .readPending ∧ (s.cfg.addrMode = .mask ∨ aligned s.rsp.capAdr = true) := by decide
theorem witness_TransitionTable_retire_write :
    let s := inState .writePending 0x100#32 0#32 0#4 base
    s.rsp.st = .writePending ∧ (s.cfg.addrMode = .mask ∨ aligned s.rsp.capAdr = true) := by decide

/-- Operations that complete, one of each kind that `ResponderRegisterWriters`,
`OnlyRetiringWritesStore`, `OnlyRetiringWritesMap`, `BusOperationsLeaveTheRest`,
`ConfigurationIsReadOnly`, `CounterAdvancesAtBoundariesOnly` and `ResetLineFallsOnce` speak of:
each answers a next state, and is of the kind named. -/
theorem witness_exec_completes :
    (∃ t, exec (.read 0#4 0x100#32 0#32) base = .next t) ∧ acceptsRead (.read 0#4 0x100#32 0#32) base = true ∧
    (∃ t, exec (.write 0xF#4 0x100#32 1#32) base = .next t) ∧ acceptsWrite (.write 0xF#4 0x100#32 1#32) base = true ∧
    (∃ t, exec (.nopNoCyc false false 0#4 0#32 0#32) (inState .readPending 8#32 0#32 0#4 base) = .next t) ∧
    retiresRead (.nopNoCyc false false 0#4 0#32 0#32) (inState .readPending 8#32 0#32 0#4 base) = true ∧
    (∃ t, exec .ph3 base = .next t) ∧ Instr.format .ph3 = .phase :=
  ⟨⟨_, rfl⟩, rfl, ⟨_, rfl⟩, rfl, ⟨_, rfl⟩, rfl, ⟨_, rfl⟩, rfl⟩
theorem witness_exec_stores :
    (∃ t, exec (.retireWrite true true true) (inState .writePending 8#32 1#32 0x1#4 base) = .next t) ∧
    retiresWrite (.retireWrite true true true) (inState .writePending 8#32 1#32 0x1#4 base) = true ∧
    storesTo 8#32 0x1#4 0xB#32 = true ∧ storesTo 8#32 0x1#4 0xC#32 = false ∧
    (Instr.retireWrite true true true).format ≠ .phase := ⟨⟨_, rfl⟩, by decide⟩

theorem witness_NopInIdleHolds : (acked base).rsp.st = .idle := rfl
theorem witness_Transactions_masked :
    base.rsp.st = .idle ∧ (base.cfg.addrMode = .mask ∨ aligned 0x103#32 = true) ∧
    Instr.format (.nopNoStb true 0#4 0#32 0#32) = .req := by decide
theorem witness_Transactions_refusing :
    let s := refusing base
    s.rsp.st = .idle ∧ (s.cfg.addrMode = .mask ∨ aligned 0x100#32 = true) ∧
    Instr.format (.write 0#4 0#32 0#32) = .req := by decide
theorem witness_ReadAfterWrite :
    base.rsp.st = .idle ∧ key 0x103#32 = key 0x100#32 ∧
    ∃ t u v x, exec (.write 0x3#4 0x100#32 0x99887766#32) base = .next t ∧
      exec (.nopNoCyc false false 0#4 0#32 0#32) t = .next u ∧
      exec (.read 0#4 0x103#32 0#32) u = .next v ∧ exec (.nopNoCyc false false 0#4 0#32 0#32) v = .next x :=
  ⟨rfl, by decide, _, _, _, _, rfl, rfl, rfl, rfl⟩
theorem witness_PendingDefers_read :
    let s := inState .writePending 8#32 1#32 0xF#4 base
    Instr.format (.read 0#4 4#32 0#32) = .req ∧ s.rsp.st ≠ .idle ∧ ∃ t, exec (.read 0#4 4#32 0#32) s = .next t :=
  ⟨rfl, by decide, _, rfl⟩
theorem witness_PendingDefers_write :
    let s := inState .readPending 8#32 0#32 0#4 base
    Instr.format (.write 0xF#4 4#32 9#32) = .req ∧ s.rsp.st ≠ .idle ∧ ∃ t, exec (.write 0xF#4 4#32 9#32) s = .next t :=
  ⟨rfl, by decide, _, rfl⟩
theorem witness_PhasesDriveTheTable : base.cfg.phaseTable = Config.defaultPhaseTable := rfl

/-- A state before a boundary tick, and the tick. -/
def boundaryState : State :=
  scripted [readLines 4#32] (atTick 3 base)
/-- A state before a tick that is no boundary. -/
def betweenState : State := scripted [readLines 4#32] (atTick 1 base)

theorem witness_StepRuns_boundary :
    terminated boundaryState = false ∧ nextIsBoundary boundaryState = true ∧
    ∃ s1, decode .phase (natToBytes 1 ((boundaryState.clk.tick + 1) % 4)) = .ok .ph0 ∧
      exec .ph0 (countTick boundaryState) = .next s1 ∧
      decode .step (natToBytes 1 (stepWord (evaluateDevice s1)).toNat) = .ok .acceptRead ∧
      decode .req (natToBytes 9 (lineWord (evaluateDevice s1)).toNat) = .ok (.read 0#4 4#32 0#32) :=
  ⟨rfl, rfl, _, rfl, rfl, rfl, rfl⟩
theorem witness_StepRuns_between :
    terminated betweenState = false ∧ nextIsBoundary betweenState = false ∧
    ∃ s1, decode .phase (natToBytes 1 ((betweenState.clk.tick + 1) % 4)) = .ok .ph2 ∧
      exec .ph2 (countTick betweenState) = .next s1 ∧
      decode .step (natToBytes 1 (stepWord (evaluateDevice s1)).toNat) = .ok .acceptRead ∧
      decode .req (natToBytes 9 (lineWord (evaluateDevice s1)).toNat) = .ok (.read 0#4 4#32 0#32) :=
  ⟨rfl, rfl, _, rfl, rfl, rfl, rfl⟩
theorem witness_StepStops_goes_on :
    let s := inState .readPending 7#32 0#32 0#4 boundaryState
    ¬ (terminated s = false ∧ nextIsBoundary s = true ∧ s.rsp.st ≠ .idle ∧ s.cfg.addrMode = .refuse ∧
      aligned s.rsp.capAdr = false) := by decide
theorem witness_StepStops_refuses :
    let s := refusing (inState .readPending 7#32 0#32 0#4 boundaryState)
    terminated s = false ∧ nextIsBoundary s = true ∧ s.rsp.st ≠ .idle ∧ s.cfg.addrMode = .refuse ∧
      aligned s.rsp.capAdr = false := by decide
theorem witness_step_between :
    terminated betweenState = false ∧ nextIsBoundary betweenState = false ∧ ∃ t, step betweenState = .next t :=
  ⟨rfl, rfl, _, rfl⟩
/-- For the statements about a boundary tick: the reset rule not yet, and crossed. -/
theorem witness_step_boundary :
    terminated boundaryState = false ∧ nextIsBoundary boundaryState = true ∧ (∃ t, step boundaryState = .next t) ∧
    ¬ boundaryState.cfg.resetCycle ≤ boundaryState.run.cycle ∧
    (let s := scripted [idleLines] (atTick 7 base)
     nextIsBoundary s = true ∧ s.cfg.resetCycle ≤ s.run.cycle ∧ ∃ t, step s = .next t) :=
  ⟨rfl, rfl, ⟨_, rfl⟩, by decide, rfl, by decide, _, rfl⟩
theorem witness_ClockBits :
    terminated boundaryState = false ∧ (∃ s1, clockStep boundaryState = .next s1) ∧ (∃ t, step boundaryState = .next t) ∧
    (let u := atTick 7 boundaryState
     u.cfg.phaseTable = boundaryState.cfg.phaseTable ∧ u.clk.tick = boundaryState.clk.tick + 4 ∧
     ∃ u1, clockStep u = .next u1) := ⟨rfl, ⟨_, rfl⟩, ⟨_, rfl⟩, rfl, rfl, _, rfl⟩
/-- Tick 4 of the default table, all lines idle. -/
def clockedState : State :=
  scripted [idleLines, idleLines, idleLines, idleLines] (atTick 4 base)
theorem witness_TwoToOneClockRatio :
    clockedState.cfg.phaseTable.legal = true ∧ ClockInv clockedState ∧ 0 < clockedState.clk.tick ∧
    ∃ t u v w, step clockedState = .next t ∧ step t = .next u ∧ step u = .next v ∧ step v = .next w ∧
      terminated clockedState = false ∧ terminated t = false ∧ terminated u = false ∧ terminated v = false :=
  ⟨by decide, fun _ => by decide, by decide, _, _, _, _, rfl, rfl, rfl, rfl, rfl, rfl, rfl, rfl⟩
/-- The run's last boundary: the overrun flag's two sides, `cycle = 8` and `cycle = 9` with `RUN_CYCLES = 8`. -/
theorem witness_OverrunIsTestedEveryTick :
    got (step (scripted [idleLines] (atTick 31 base))) (fun t => (t.run.cycle, t.run.termOverrun)) = some (8, false) ∧
    got (step (scripted [idleLines] (atTick 35 base))) (fun t => (t.run.cycle, t.run.termOverrun)) = some (9, true) := by
  decide
theorem witness_flags_are_sticky :
    let s := { base with run := { base.run with termDone := true, termOverrun := true } }
    (∃ t, step s = .next t) ∧ s.run.termOverrun = true ∧ s.run.termDone = true := ⟨⟨_, rfl⟩, rfl, rfl⟩
theorem witness_NothingRunsAfterTheEnd :
    terminated { base with run := { base.run with termOverrun := true } } = true ∧
    ({ base with run := { base.run with termOverrun := true } } : State).diag.finalized = false := by decide
/-- No queued lines: the free function answers. -/
theorem witness_DeviceSees : terminated base = false ∧ base.env.script = [] ∧ ∃ t, step base = .next t :=
  ⟨rfl, rfl, _, rfl⟩
theorem witness_DoneIsRead_scripted :
    terminated betweenState = false ∧ (∃ t, step betweenState = .next t) ∧ betweenState.env.script = readLines 4#32 :: [] :=
  ⟨rfl, ⟨_, rfl⟩, rfl⟩
/-- All three events in one tick. -/
theorem witness_EventsOfATick :
    let s : State := { scripted [idleLines] (inState .writePending 8#32 1#32 0xF#4 (atTick 7 base)) with
      cfg := { params with hbCycles := 2 }, mm := { base.mm with logStores := true } }
    terminated s = false ∧ got (step s) (fun t => t.diag.events.length) = some 3 := by decide
theorem witness_PlacedWord_phase :
    Instr.wellFormed .ph2 = true ∧ ∃ s1, clockStep (base.withFetchWord 2 (encodeBits .ph2)) = .next s1 := ⟨rfl, _, rfl⟩
theorem witness_PlacedWord_step :
    Instr.wellFormed (.retireWrite false true true) = true ∧
    ∃ s1, clockStep (base.withFetchWord 5 (encodeBits (.retireWrite false true true))) = .next s1 := ⟨rfl, _, rfl⟩
theorem witness_PlacedWord_req :
    Instr.wellFormed (.write 0x1#4 4#32 2#32) = true ∧
    ∃ s1, clockStep (base.withFetchWord 71 (encodeBits (.write 0x1#4 4#32 2#32))) = .next s1 := ⟨rfl, _, rfl⟩

/-- The invariant at a state that lists memory, in a run. -/
theorem inv_holding : Inv (holding 4#32 2#32 base) where
  memory := storeWord_memoryInv _ _ (construct_memoryInv _ _)
  attributes := ⟨rfl, rfl, rfl⟩
  counters := ⟨by decide, by decide, by decide, by decide, by decide⟩
  clocks := fun h => absurd h (by decide)
  acknowledge := fun h => absurd h (by decide)
  closing := ⟨rfl, fun h => absurd h (by decide)⟩
theorem witness_InvariantAfterBoot : ∃ s, boot { params with image := some imageV16 } draws = .next s := ⟨_, rfl⟩
theorem witness_StepKeepsTheInvariant :
    Inv (holding 4#32 2#32 base) ∧ ∃ t, step (holding 4#32 2#32 base) = .next t := ⟨inv_holding, _, rfl⟩
/-- Two different states that agree but for diagnostics. -/
theorem witness_DiagnosticsDecideNothing :
    let u : State := { betweenState with cfg := { betweenState.cfg with traceEnabled := false, hbCycles := 3 } }
    betweenState ≠ u ∧ quiet betweenState = quiet u ∧ ∃ t, step betweenState = .next t := ⟨by decide, by decide, _, rfl⟩

/-- Twelve records: a read at the first boundary only, other requests between boundaries. -/
theorem witness_IsolatedRead :
    ∃ (s : State) (r a1 a2 a3 b b1 b2 b3 c c1 c2 c3 : Lines) (rest : List Lines),
      terminated s = false ∧ s.cfg.addrMode = .mask ∧ s.rsp.st = .idle ∧ nextIsBoundary s = true ∧
      s.env.script = [r, a1, a2, a3, b, b1, b2, b3, c, c1, c2, c3] ++ rest ∧
      (∀ o ∈ [r, a1, a2, a3, b, b1, b2, b3, c, c1, c2, c3], o.done = false) ∧
      isRequest r = true ∧ r.we = false ∧ isRequest c = false ∧ s.run.cycle + 3 ≤ s.cfg.runCycles :=
  ⟨scripted ([readLines 4#32, readLines 8#32, idleLines, idleLines] ++ [writeLines 0#32 0#32 0xF#4, idleLines, idleLines, idleLines] ++
      [idleLines, readLines 8#32, idleLines, idleLines]) (atTick 7 (holding 4#32 2#32 base)),
    readLines 4#32, readLines 8#32, idleLines, idleLines, writeLines 0#32 0#32 0xF#4, idleLines, idleLines, idleLines,
    idleLines, readLines 8#32, idleLines, idleLines, [], by decide⟩

/-- The premises of `HeldRequestIsServed` for a request held at three boundaries in a given state. -/
def Held (s : State) (r : Lines) : Prop :=
  terminated s = false ∧ s.cfg.addrMode = .mask ∧ nextIsBoundary s = true ∧
  s.env.script = [r, idleLines, idleLines, idleLines, r, idleLines, idleLines, idleLines, r] ++ [] ∧
  (∀ o ∈ [r, idleLines, idleLines, idleLines, r, idleLines, idleLines, idleLines, r], o.done = false) ∧
  isRequest r = true ∧ sameRequest r r = true ∧ s.run.cycle + 2 ≤ s.cfg.runCycles

/-- A read from `Idle`. -/
theorem witness_HeldRequest_idle :
    let r := readLines 4#32
    Held (scripted [r, idleLines, idleLines, idleLines, r, idleLines, idleLines, idleLines, r] (atTick 3 base)) r ∧
    r.we = false := ⟨⟨rfl, rfl, rfl, rfl, by decide⟩, rfl⟩
/-- A write of lane 1 from a pending read. -/
theorem witness_HeldRequest_pending :
    let r := writeLines 4#32 0x55667788#32 0x4#4
    Held (scripted [r, idleLines, idleLines, idleLines, r, idleLines, idleLines, idleLines, r]
      (inState .readPending 8#32 0#32 0#4 (atTick 3 base))) r ∧
    r.we = true ∧ selectsByte r.sel 1 = true := ⟨⟨rfl, rfl, rfl, rfl, by decide⟩, rfl, rfl⟩

theorem witness_RunWithoutCompletion :
    let p : Params := { params with runCycles := 0 }
    let lines := [idleLines, idleLines, idleLines, idleLines]
    (∃ s, boot p draws = .next s) ∧ (p.addrMode = .mask ∨ ∀ o ∈ lines, aligned o.adr = true) ∧
    lines.length = 4 * (p.runCycles + 1) - (4 - p.boundaryIndex.val) % 4 ∧
    (∀ o ∈ lines, o.done = false) := ⟨⟨_, rfl⟩, by decide⟩
/-- The shortest run: boundary index 1, one tick; addresses not masked. -/
theorem witness_RunWithoutCompletion_refusing :
    let p : Params := { params with runCycles := 0, boundaryIndex := 1, addrMode := .refuse }
    let lines := [readLines 8#32]
    (∃ s, boot p draws = .next s) ∧ (p.addrMode = .mask ∨ ∀ o ∈ lines, aligned o.adr = true) ∧
    lines.length = 4 * (p.runCycles + 1) - (4 - p.boundaryIndex.val) % 4 ∧
    (∀ o ∈ lines, o.done = false) := ⟨⟨_, rfl⟩, by decide⟩
theorem witness_EveryRunEnds : Inv (holding 4#32 2#32 base) ∧ (holding 4#32 2#32 base).cfg.addrMode = .mask :=
  ⟨inv_holding, rfl⟩
theorem witness_ResetLineGatesNothing :
    betweenState.env.script = readLines 4#32 :: [] ∧ (∃ t, step betweenState = .next t) ∧
    boundaryState.env.script = readLines 4#32 :: [] ∧ ∃ t, step boundaryState = .next t := ⟨rfl, ⟨_, rfl⟩, rfl, _, rfl⟩

end Sys2Proof.Tests
end

/-! SUPPORT. Proofs of the statements of `10_state.md`: what operations and steps leave alone, what
is only diagnostic, and the invariant of a run. -/

namespace Sys2Proof.Machine

/-! ### What a step after the end leaves -/

@[simp] theorem afterRun_mm (s : State) : (afterRun s).mm = s.mm := by unfold afterRun; split <;> rfl
@[simp] theorem afterRun_rsp (s : State) : (afterRun s).rsp = s.rsp := by unfold afterRun; split <;> rfl
@[simp] theorem afterRun_clk (s : State) : (afterRun s).clk = s.clk := by unfold afterRun; split <;> rfl
@[simp] theorem afterRun_run (s : State) : (afterRun s).run = s.run := by unfold afterRun; split <;> rfl
@[simp] theorem afterRun_cfg (s : State) : (afterRun s).cfg = s.cfg := by unfold afterRun; split <;> rfl

@[simp] theorem terminated_afterRun (s : State) : terminated (afterRun s) = terminated s := by
  simp [terminated]

theorem step_of_terminated {s t : State} (ht : terminated s = true) (h : step s = .next t) : t = afterRun s := by
  obtain ⟨-, rfl⟩ | ⟨hgoes, -⟩ | ⟨hgoes, -⟩ := step_eq_next h
  · rfl
  · simp [ht] at hgoes
  · simp [ht] at hgoes

/-! ### What operations and steps leave alone -/

/-- The configuration and the attributes of memory are the same in both states (10_state.md R12, R13,
R26). -/
structure SameSettings (s t : State) : Prop where
  cfg : t.cfg = s.cfg
  defaultValue : t.mm.defaultValue = s.mm.defaultValue
  littleEndian : t.mm.littleEndian = s.mm.littleEndian
  logStores : t.mm.logStores = s.mm.logStores

/-- Two states that differ at most in the responder, the contents of the map and the events: what a
micro-operation may write (42_bus_responder.md R117 to R121). -/
structure MicroFrame (s t : State) : Prop extends SameSettings s t where
  clk : t.clk = s.clk
  run : t.run = s.run
  env : t.env = s.env
  sinkOpen : t.diag.sinkOpen = s.diag.sinkOpen
  finalized : t.diag.finalized = s.diag.finalized

theorem setResponder_microFrame (r : Responder) (s : State) : MicroFrame s (setResponder r s) :=
  ⟨⟨rfl, rfl, rfl, rfl⟩, rfl, rfl, rfl, rfl, rfl⟩

theorem retireRead_microFrame {s t : State} (h : retireRead s = .next t) : MicroFrame s t := by
  obtain ⟨-, ht⟩ := accessing_eq_next h
  cases ht
  exact setResponder_microFrame _ s

theorem retireWrite_microFrame {s t : State} (h : retireWrite s = .next t) : MicroFrame s t := by
  obtain ⟨-, ht⟩ := accessing_eq_next h
  cases ht
  obtain ⟨hdv, hle, hls⟩ := memWriteMasked_attributes s.rsp.capAdr s.rsp.capSel s.rsp.capDat s
  obtain ⟨hsink, hfin⟩ := memWriteMasked_diag s.rsp.capAdr s.rsp.capSel s.rsp.capDat s
  constructor
  · constructor <;> simp [hdv, hle, hls]
  all_goals simp [hsink, hfin]

theorem rspStep_microFrame {s t : State} (h : rspStep s = .next t) : MicroFrame s t := by
  obtain ⟨hclk, hrun, hcfg, henv, hsink, hfin, hdv, hle, hls⟩ := rspStep_frame h
  exact ⟨⟨hcfg, hdv, hle, hls⟩, hclk, hrun, henv, hsink, hfin⟩

/-- A micro-operation writes the responder, the map and the events only, in whichever responder state
it is run. -/
theorem exec_step_microFrame {i : Instr} (hi : i.format = .step) {s t : State} (h : exec i s = .next t) :
    MicroFrame s t := by
  cases i with
  | idleHoldNoCyc stb we => cases h; exact setResponder_microFrame _ s
  | idleHoldNoStb we => cases h; exact setResponder_microFrame _ s
  | acceptRead => cases h; exact setResponder_microFrame _ s
  | acceptWrite => cases h; exact setResponder_microFrame _ s
  | retireRead cyc stb we => exact retireRead_microFrame h
  | retireWrite cyc stb we => exact retireWrite_microFrame h
  | reservedSt3 cyc stb we => cases h
  | _ => cases hi

/-- A bus command has that frame too, seen from the state with its lines presented. -/
theorem exec_req_microFrame {i : Instr} (hi : i.format = .req) {s t : State} (h : exec i s = .next t) :
    ∃ o, MicroFrame (present o s) t := by
  obtain ⟨o, ho, -⟩ := exec_req hi s
  exact ⟨o, rspStep_microFrame (ho ▸ h)⟩

/-- A phase drives the clock bits of a table entry and does nothing else. -/
theorem exec_phase {i : Instr} (hi : i.format = .phase) (s : State) : ∃ k, exec i s = .next (drivePhase k s) := by
  cases i with
  | ph0 => exact ⟨0, rfl⟩
  | ph1 => exact ⟨1, rfl⟩
  | ph2 => exact ⟨2, rfl⟩
  | ph3 => exact ⟨3, rfl⟩
  | _ => cases hi

theorem exec_sameSettings {i : Instr} {s t : State} (h : exec i s = .next t) : SameSettings s t := by
  cases hi : i.format with
  | req =>
    obtain ⟨o, hf⟩ := exec_req_microFrame hi h
    exact ⟨hf.cfg, hf.defaultValue, hf.littleEndian, hf.logStores⟩
  | step => exact (exec_step_microFrame hi h).toSameSettings
  | phase =>
    obtain ⟨k, hk⟩ := exec_phase hi s
    cases hk.symm.trans h
    exact ⟨rfl, rfl, rfl, rfl⟩

theorem step_sameSettings {s t : State} (h : step s = .next t) : SameSettings s t := by
  obtain ⟨-, rfl⟩ | ⟨-, -, rfl⟩ | ⟨-, -, u, hu, rfl⟩ := step_eq_next h
  · constructor <;> simp
  · constructor <;> simp
  · have hf := rspStep_microFrame hu
    constructor <;> simp [hf.cfg, hf.defaultValue, hf.littleEndian, hf.logStores]

/-- Settles O29: a micro-operation keeps its frame, and a bus command keeps it from the state in which
its lines are presented. -/
theorem busOperationsLeaveTheRest : Obligations.BusOperationsLeaveTheRest := by
  intro i s t hi h
  cases hf : i.format with
  | req =>
    obtain ⟨o, m⟩ := exec_req_microFrame hf h
    have henv := m.env
    exact ⟨m.clk, m.run, m.cfg, m.defaultValue, m.littleEndian, m.logStores, m.sinkOpen, m.finalized,
      by rw [henv]; rfl, by rw [henv]; rfl, nofun⟩
  | step =>
    have m := exec_step_microFrame hf h
    exact ⟨m.clk, m.run, m.cfg, m.defaultValue, m.littleEndian, m.logStores, m.sinkOpen, m.finalized,
      by rw [m.env], by rw [m.env], fun _ => m.env⟩
  | phase => exact absurd hf hi

/-- Settles O30, from the settings that each operation and each step keeps. -/
theorem configurationIsReadOnly : Obligations.ConfigurationIsReadOnly := by
  constructor
  · intro i s t h
    obtain ⟨hcfg, hdv, hle, hls⟩ := exec_sameSettings h
    exact ⟨hcfg, hdv, hle, hls⟩
  · intro s t h
    obtain ⟨hcfg, hdv, hle, hls⟩ := step_sameSettings h
    exact ⟨hcfg, hdv, hle, hls⟩

/-! ### What a tick makes of the device's record, the counters and the sink -/

section Tick
variable {s t : State} (ht : terminated s = false) (h : step s = .next t)
include ht h

/-- After the device's `evaluate` no part of a tick writes its record. -/
theorem step_env : t.env = (evaluateDevice (clkAdvance s)).env := by
  obtain ⟨hend, -⟩ | ⟨-, -, rfl⟩ | ⟨-, -, u, hu, rfl⟩ := step_eq_next h
  · simp [ht] at hend
  · simp
  · simp [(rspStep_microFrame hu).env]

/-- The count a tick leaves: one more at a boundary (43_simulation_driver.md R148). -/
theorem step_cycle : t.run.cycle = if nextIsBoundary s then s.run.cycle + 1 else s.run.cycle := by
  obtain ⟨hend, -⟩ | ⟨-, hb, rfl⟩ | ⟨-, hb, u, hu, rfl⟩ := step_eq_next h
  · simp [ht] at hend
  · simp [hb]
  · simp [hb, (rspStep_microFrame hu).run]

/-- The reset rule runs at a boundary, on the count before its advance (43_simulation_driver.md R147). -/
theorem step_resetLine :
    t.run.resetLine =
      if nextIsBoundary s then resetAfter s.run.cycle s.cfg.resetCycle s.run.resetLine else s.run.resetLine := by
  obtain ⟨hend, -⟩ | ⟨-, hb, rfl⟩ | ⟨-, hb, u, hu, rfl⟩ := step_eq_next h
  · simp [ht] at hend
  · simp [hb]
  · simp [hb, (rspStep_microFrame hu).run, (rspStep_microFrame hu).cfg]

/-- The run length is tested on every tick, on the count after its advance (43_simulation_driver.md
R150); the flag was 0, since the run had not ended. -/
theorem step_termOverrun : t.run.termOverrun = decide (s.cfg.runCycles < t.run.cycle) := by
  have hflag : s.run.termOverrun = false := by
    rw [terminated, Bool.or_eq_false_iff] at ht
    exact ht.2
  obtain ⟨hend, -⟩ | ⟨-, -, rfl⟩ | ⟨-, -, u, hu, rfl⟩ := step_eq_next h
  · simp [ht] at hend
  · simp [overrunAfter, hflag]
  · simp [overrunAfter, hflag, (rspStep_microFrame hu).run, (rspStep_microFrame hu).cfg]

/-- A tick leaves the sink and the finalization (43_simulation_driver.md R152). -/
theorem step_closing : t.diag.sinkOpen = s.diag.sinkOpen ∧ t.diag.finalized = s.diag.finalized := by
  obtain ⟨hend, -⟩ | ⟨-, -, rfl⟩ | ⟨-, -, u, hu, rfl⟩ := step_eq_next h
  · simp [ht] at hend
  · simp
  · have hf := rspStep_microFrame hu
    simp [hf.sinkOpen, hf.finalized]

end Tick

/-- Settles O41: `evaluate` runs after `CLK.ADVANCE` and before the responder and the reset rule. -/
theorem deviceSeesTheOutputsOfTheTickBefore : Obligations.DeviceSeesTheOutputsOfTheTickBefore := by
  intro s t ht hfree h
  have henv : t.env = (evaluateDevice (clkAdvance s)).env := step_env ht h
  have hclk : t.clk = (clkAdvance s).clk := step_clk ht h
  have hfree' : (clkAdvance s).env.script = [] := by simpa using hfree
  rw [henv, hclk, evaluateDevice_free hfree']
  simp [driven]

/-! ### The invariant of a run -/

theorem boundariesBy_zero (b : Fin 4) : boundariesBy b 0 = 0 := by
  have := b.isLt
  simp only [boundariesBy]
  omega

/-- A tick adds one boundary if it is a boundary tick. -/
theorem boundariesBy_succ (b : Fin 4) (n : Nat) :
    boundariesBy b (n + 1) = if (n + 1) % 4 = b.val then boundariesBy b n + 1 else boundariesBy b n := by
  have := b.isLt
  simp only [boundariesBy]
  split <;> omega

/-- Construction satisfies the invariant, whatever the parameters and the unspecified values are. -/
theorem construct_inv (p : Params) (d : Draws) : Inv (State.construct p d) where
  memory := construct_memoryInv p d
  attributes := ⟨rfl, rfl, rfl⟩
  counters :=
    { cycle_eq := (boundariesBy_zero p.boundaryIndex).symm
      reset_eq := by simp [State.construct]
      overrun_eq := by simp [State.construct]
      cycle_le := Nat.zero_le _
      overrun_at_boundary := nofun }
  clocks := nofun
  acknowledge := nofun
  closing := ⟨rfl, nofun⟩

/-- Settles O46: the reset state is one construction. -/
theorem invariantAtReset : Obligations.InvariantAtReset := construct_inv Config.params Config.draws

/-- A step writes memory only through `RSP.STEP`. -/
theorem step_keeps_memoryInv {s t : State} (h : step s = .next t) (hi : MemoryInv s.mm) : MemoryInv t.mm := by
  obtain ⟨-, rfl⟩ | ⟨-, -, rfl⟩ | ⟨-, -, u, hu, rfl⟩ := step_eq_next h
  · simpa using hi
  · simpa using hi
  · simpa using rspStep_memoryInv hu (by simpa using hi)

theorem step_keeps_attributeInv {s t : State} (h : step s = .next t) (hi : AttributeInv s) : AttributeInv t := by
  obtain ⟨hcfg, hdv, hle, hls⟩ := step_sameSettings h
  exact ⟨by rw [hdv, hcfg, hi.default_value], by rw [hle, hcfg, hi.little_endian], by rw [hls, hcfg, hi.log_stores]⟩

/-- The reset rule keeps the line in step with the count it is about to advance. -/
theorem resetAfter_decide (cycle resetCycle : Nat) :
    resetAfter cycle resetCycle (decide (cycle ≤ resetCycle)) = decide (cycle + 1 ≤ resetCycle) := by
  unfold resetAfter
  split <;> simp <;> omega

/-- A boundary counts one, the reset line falls by the count, and the overrun flag, which the run's
going on says is 0, rises only with the count. -/
theorem tick_keeps_counterInv {s t : State} (ht : terminated s = false) (h : step s = .next t) (hi : CounterInv s) :
    CounterInv t := by
  obtain ⟨hcycle, hreset, hoverrun, -, -⟩ := hi
  have hcfg : t.cfg = s.cfg := (step_sameSettings h).cfg
  have htick : t.clk.tick = s.clk.tick + 1 := by rw [step_clk ht h, clkAdvance_clk]
  have hc := step_cycle ht h
  have hr := step_resetLine ht h
  have ho := step_termOverrun ht h
  have hle : s.run.cycle ≤ s.cfg.runCycles := by
    rw [terminated, Bool.or_eq_false_iff] at ht
    simpa [ht.2] using hoverrun
  have hb : nextIsBoundary s = decide ((s.clk.tick + 1) % 4 = s.cfg.boundaryIndex.val) := rfl
  have hsucc := boundariesBy_succ s.cfg.boundaryIndex s.clk.tick
  by_cases hat : (s.clk.tick + 1) % 4 = s.cfg.boundaryIndex.val
  · simp only [hb, hat, decide_true, if_true] at hc hr hsucc
    exact
      { cycle_eq := by rw [hcfg, htick, hsucc, hc, hcycle]
        reset_eq := by rw [hcfg, hr, hreset, resetAfter_decide, hc]
        overrun_eq := by rw [hcfg, ho]
        cycle_le := by rw [hcfg]; omega
        overrun_at_boundary := fun _ => by rw [hcfg, htick, hat] }
  · simp only [hb, hat, decide_false, Bool.false_eq_true, if_false] at hc hr hsucc
    exact
      { cycle_eq := by rw [hcfg, htick, hsucc, hc, hcycle]
        reset_eq := by rw [hcfg, hr, hreset, hc]
        overrun_eq := by rw [hcfg, ho]
        cycle_le := by rw [hcfg]; omega
        overrun_at_boundary := fun hover => by
          rw [ho, decide_eq_true_eq] at hover
          omega }

theorem step_keeps_counterInv {s t : State} (h : step s = .next t) (hi : CounterInv s) : CounterInv t := by
  cases ht : terminated s with
  | false => exact tick_keeps_counterInv ht h hi
  | true =>
    obtain rfl := step_of_terminated ht h
    obtain ⟨hcycle, hreset, hoverrun, hle, hat⟩ := hi
    constructor <;> simpa

/-- A tick drives the entry of its own count (41_clock_phase_generator.md R101), and after the end the
clocks stand. -/
theorem step_keeps_clockInv {s t : State} (h : step s = .next t) (hi : ClockInv s) : ClockInv t := by
  cases ht : terminated s with
  | false =>
    intro _
    simp [(step_sameSettings h).cfg, step_clk ht h]
  | true =>
    obtain rfl := step_of_terminated ht h
    simpa [ClockInv] using hi

/-- `RSP.STEP` raises acknowledge only on its way to `Idle` (42_bus_responder.md R128). -/
theorem rspStep_ackInv {s t : State} (h : rspStep s = .next t) : AckInv t := by
  obtain ⟨-, -, rfl⟩ | ⟨-, -, -, rfl⟩ | ⟨-, -, -, rfl⟩ | ⟨-, -, rfl⟩ | ⟨-, -, rfl⟩ := rspStep_eq_next h <;>
    simp [AckInv, idleHold, acceptRead, acceptWrite]

theorem step_keeps_ackInv {s t : State} (h : step s = .next t) (hi : AckInv s) : AckInv t := by
  obtain ⟨-, rfl⟩ | ⟨-, -, rfl⟩ | ⟨-, -, u, hu, rfl⟩ := step_eq_next h
  · simpa [AckInv] using hi
  · simpa [AckInv] using hi
  · simpa [AckInv] using rspStep_ackInv hu

/-- Before the end nothing closes; after it the sink and the device are closed in one step. -/
theorem step_keeps_closeInv {s t : State} (h : step s = .next t) (hi : CloseInv s) : CloseInv t := by
  obtain ⟨hsink, hfin⟩ := hi
  cases ht : terminated s with
  | false =>
    obtain ⟨hsink', hfin'⟩ := step_closing ht h
    have hopen : s.diag.finalized = false := by
      cases hf : s.diag.finalized with
      | false => rfl
      | true => exact absurd (hfin hf) (by simp [ht])
    exact ⟨by rw [hsink', hfin', hsink], fun hf => by simp [hfin', hopen] at hf⟩
  | true =>
    obtain rfl := step_of_terminated ht h
    refine ⟨?_, fun _ => by rw [terminated_afterRun, ht]⟩
    unfold afterRun
    split
    · exact hsink
    · rfl

/-- Settles O47: each part of the invariant is kept by its own lemma. -/
theorem stepKeepsTheInvariant : Obligations.StepKeepsTheInvariant := fun _ _ hi h =>
  { memory := step_keeps_memoryInv h hi.memory
    attributes := step_keeps_attributeInv h hi.attributes
    counters := step_keeps_counterInv h hi.counters
    clocks := step_keeps_clockInv h hi.clocks
    acknowledge := step_keeps_ackInv h hi.acknowledge
    closing := step_keeps_closeInv h hi.closing }

/-! ### What is only diagnostic -/

@[simp] theorem terminated_quiet (s : State) : terminated (quiet s) = terminated s := rfl
@[simp] theorem nextIsBoundary_quiet (s : State) : nextIsBoundary (quiet s) = nextIsBoundary s := rfl
@[simp] theorem memRead_quiet (s : State) (a : Word) : memRead (quiet s) a = memRead s a := rfl
@[simp] theorem refusesAddr_quiet (s : State) (a : Word) : refusesAddr (quiet s) a = refusesAddr s a := rfl

/-! Each operation of a step commutes with `quiet`: what it forgets decides nothing else, and in a quiet
state no event is emitted. -/

@[simp] theorem setResponder_quiet (r : Responder) (s : State) :
    setResponder r (quiet s) = quiet (setResponder r s) := rfl

@[simp] theorem clkAdvance_quiet (s : State) : clkAdvance (quiet s) = quiet (clkAdvance s) := rfl

@[simp] theorem testTermination_quiet (s : State) : testTermination (quiet s) = quiet (testTermination s) := rfl

@[simp] theorem traceTick_quiet (s : State) : traceTick (quiet s) = quiet (traceTick s) := rfl

@[simp] theorem afterResponder_quiet (s : State) : afterResponder (quiet s) = quiet (afterResponder s) := rfl

@[simp] theorem memWriteWord_quiet (a w : Word) (s : State) :
    memWriteWord a w (quiet s) = quiet (memWriteWord a w s) := rfl

@[simp] theorem memWriteMasked_quiet (a : Word) (be : LaneSel) (w : Word) (s : State) :
    memWriteMasked a be w (quiet s) = quiet (memWriteMasked a be w s) := by
  unfold memWriteMasked
  split
  · rfl
  · simp

@[simp] theorem evaluateDevice_quiet (s : State) : evaluateDevice (quiet s) = quiet (evaluateDevice s) := by
  obtain ⟨mm, rsp, clk, run, cfg, diag, sampled, script, dutState⟩ := s
  cases script <;> rfl

@[simp] theorem afterRun_quiet (s : State) : afterRun (quiet s) = quiet (afterRun s) := by
  unfold afterRun
  cases hf : s.diag.finalized <;> simp [quiet, hf, closeRun]

/-- What an operation answers, without what is only diagnostic. -/
def quietOutcome (o : Host.Outcome State Fault Refusal) : Host.Outcome State Fault Refusal :=
  andThen o (fun t => .next (quiet t))

@[simp] theorem quietOutcome_next (t : State) : quietOutcome (.next t) = .next (quiet t) := rfl

theorem accessing_quiet (a : Word) (s : State) (o : Host.Outcome State Fault Refusal) :
    accessing a (quiet s) (quietOutcome o) = quietOutcome (accessing a s o) := by
  cases hr : refusesAddr s a with
  | true => simp only [accessing, refusesAddr_quiet, hr, if_true]; rfl
  | false => simp [accessing, hr]

@[simp] theorem retireRead_quiet (s : State) : retireRead (quiet s) = quietOutcome (retireRead s) :=
  accessing_quiet s.rsp.capAdr s
    (.next (setResponder { s.rsp with rdata := memRead s s.rsp.capAdr, ack := true, st := .idle } s))

@[simp] theorem retireWrite_quiet (s : State) : retireWrite (quiet s) = quietOutcome (retireWrite s) := by
  have hw := memWriteMasked_quiet s.rsp.capAdr s.rsp.capSel s.rsp.capDat s
  have ha := accessing_quiet s.rsp.capAdr s
    (.next (setResponder { s.rsp with ack := true, st := .idle }
      (memWriteMasked s.rsp.capAdr s.rsp.capSel s.rsp.capDat s)))
  rwa [quietOutcome_next, ← setResponder_quiet, ← hw] at ha

/-- The responder reads its own registers, the lines and the map, which `quiet` keeps. -/
@[simp] theorem rspStep_quiet (s : State) : rspStep (quiet s) = quietOutcome (rspStep s) := by
  have hrsp : (quiet s).rsp = s.rsp := rfl
  have henv : (quiet s).env = s.env := rfl
  simp only [rspStep, hrsp, henv]
  cases s.rsp.st with
  | idle =>
    dsimp only
    split
    · split <;> rfl
    · rfl
  | readPending => exact retireRead_quiet s
  | writePending => exact retireWrite_quiet s

/-- A step of a quiet state is the step without what is only diagnostic. -/
theorem step_quiet (s : State) : step (quiet s) = quietOutcome (step s) := by
  unfold step
  rw [terminated_quiet]
  split
  · simp
  · cases hb : nextIsBoundary s with
    | false =>
      have hq : nextIsBoundary (quiet s) = false := by rw [nextIsBoundary_quiet, hb]
      simp [drvTick_between hb, drvTick_between hq]
    | true =>
      have hq : nextIsBoundary (quiet s) = true := by rw [nextIsBoundary_quiet, hb]
      rw [drvTick_boundary hb, drvTick_boundary hq, clkAdvance_quiet, evaluateDevice_quiet, rspStep_quiet]
      cases rspStep (evaluateDevice (clkAdvance s)) <;> rfl

/-- Settles O48: the two states have one quiet state, and its step is the quiet step of both. -/
theorem diagnosticsDecideNothing : Obligations.DiagnosticsDecideNothing := by
  intro s u t hq h
  have hu : quietOutcome (step u) = .next (quiet t) := by
    rw [← step_quiet u, ← hq, step_quiet s, h, quietOutcome_next]
  obtain ⟨v, hv, hvt⟩ := andThen_eq_next hu
  exact ⟨v, hv, (Host.Outcome.next.inj hvt).symm⟩

end Sys2Proof.Machine

/-! SUPPORT. Proofs of the statements of `20_memory.md`: which access is refused, what an operation
makes of the map, and a read after a write to its key. -/

namespace Sys2Proof.Machine

/-! ### The refused access -/

theorem accessing_of_refused {a : Word} {s : State} (o : Host.Outcome State Fault Refusal)
    (h : refusesAddr s a = true) : accessing a s o = .refused .unalignedAddress := if_pos h

/-- Settles O16: both retires access the captured address. -/
theorem unalignedRetireRefused : Obligations.UnalignedRetireRefused := by
  intro cyc stb we s hmode hadr
  have hr : refusesAddr s s.rsp.capAdr = true := (refusesAddr_iff s s.rsp.capAdr).2 ⟨hmode, hadr⟩
  exact ⟨accessing_of_refused _ hr, accessing_of_refused _ hr⟩

/-! ### The map after an operation -/

/-- The map after the captured masked write (42_bus_responder.md R121). -/
def storedMap (s : State) : MemoryModel := (memWriteMasked s.rsp.capAdr s.rsp.capSel s.rsp.capDat s).mm

theorem storedMap_present (o : Lines) (s : State) : storedMap (present o s) = storedMap s :=
  memWriteMasked_mm_congr (present_mm o s) _ _ _

theorem retireRead_mm {s t : State} (h : retireRead s = .next t) : t.mm = s.mm := by
  obtain ⟨-, ht⟩ := accessing_eq_next h
  cases ht
  rfl

theorem retireWrite_mm {s t : State} (h : retireWrite s = .next t) : t.mm = storedMap s := by
  obtain ⟨-, ht⟩ := accessing_eq_next h
  cases ht
  rfl

theorem rspStep_mm {s t : State} (h : rspStep s = .next t) :
    t.mm = if s.rsp.st = .writePending then storedMap s else s.mm := by
  obtain ⟨hst, -, rfl⟩ | ⟨hst, -, -, rfl⟩ | ⟨hst, -, -, rfl⟩ | ⟨hst, -, rfl⟩ | ⟨hst, -, rfl⟩ := rspStep_eq_next h <;>
    rw [hst] <;> rfl

/-- A dispatch word selects `RETIRE_WRITE` exactly while a write is pending, whatever the lines
(30_encoding.md R63). -/
theorem decodeStep_retiresWrite (st : RspState) : ∀ cyc stb we : Bool,
    (decodeStep (dispatchWord (stBits st) cyc stb we)).mnemonic = "RETIRE_WRITE" ↔ st = .writePending := by
  cases st with
  | idle => decide
  | readPending => decide
  | writePending => decide

/-- A bus command retires a write exactly while one is pending. -/
theorem retiresWrite_of_req {i : Instr} (hi : i.format = .req) (s : State) :
    retiresWrite i s = true ↔ s.rsp.st = .writePending := by
  obtain ⟨o, -, hm⟩ := exec_req hi s
  rw [retiresWrite, beq_iff_eq, hm]
  exact decodeStep_retiresWrite s.rsp.st o.cyc o.stb o.we

/-- The map after any operation: only a retiring write changes it. -/
theorem exec_mm {i : Instr} {s t : State} (h : exec i s = .next t) :
    t.mm = if retiresWrite i s then storedMap s else s.mm := by
  cases hi : i.format with
  | req =>
    obtain ⟨o, ho, -⟩ := exec_req hi s
    rw [rspStep_mm (ho ▸ h), storedMap_present]
    exact if_congr (retiresWrite_of_req hi s).symm rfl rfl
  | step =>
    cases i with
    | retireRead cyc stb we => exact retireRead_mm h
    | retireWrite cyc stb we => exact retireWrite_mm h
    | idleHoldNoCyc stb we => cases h; rfl
    | idleHoldNoStb we => cases h; rfl
    | acceptRead => cases h; rfl
    | acceptWrite => cases h; rfl
    | reservedSt3 cyc stb we => cases h
    | _ => cases hi
  | phase =>
    cases i with
    | ph0 => cases h; rfl
    | ph1 => cases h; rfl
    | ph2 => cases h; rfl
    | ph3 => cases h; rfl
    | _ => cases hi

/-- Settles O27: an operation's map is the one it found or that of the captured masked write, whose
bytes the lane law gives. -/
theorem onlyRetiringWritesStore : Obligations.OnlyRetiringWritesStore := by
  intro i s t h a
  have hmm := exec_mm h
  cases hw : retiresWrite i s with
  | false => exact memByte_of_mm (by simpa [hw] using hmm) a
  | true =>
    have hb : memByte t a = memByte (memWriteMasked s.rsp.capAdr s.rsp.capSel s.rsp.capDat s) a :=
      memByte_of_mm (by simpa [hw, storedMap] using hmm) a
    rw [hb, memByte_memWriteMasked, Bool.true_and]

/-! ### A read after a write -/

/-- A request is accepted in `Idle` (42_bus_responder.md R118, R119). -/
theorem rspStep_of_request {s : State} (hst : s.rsp.st = .idle) (hreq : isRequest s.env.sampled = true) :
    rspStep s = .next (if s.env.sampled.we then acceptWrite s else acceptRead s) := by
  unfold isRequest at hreq
  rw [rspStep, hst]
  dsimp only
  rw [if_pos hreq]
  cases s.env.sampled.we <;> rfl

theorem exec_write_of_idle {s : State} (hst : s.rsp.st = .idle) (sel : LaneSel) (adr wdata : Word) :
    exec (.write sel adr wdata) s = .next (acceptWrite (presentReq true true true sel adr wdata s)) :=
  rspStep_of_request (s := presentReq true true true sel adr wdata s) hst rfl

theorem exec_read_of_idle {s : State} (hst : s.rsp.st = .idle) (sel : LaneSel) (adr wdata : Word) :
    exec (.read sel adr wdata) s = .next (acceptRead (presentReq true true false sel adr wdata s)) :=
  rspStep_of_request (s := presentReq true true false sel adr wdata s) hst rfl

section Pending
variable {i : Instr} {s t : State} (hi : i.format = .req) (h : exec i s = .next t)
include hi h

/-- Whatever bus command is on the lines, a pending read retires (42_bus_responder.md R120). -/
theorem exec_req_of_readPending (hst : s.rsp.st = .readPending) :
    t.rsp = { s.rsp with rdata := memRead s s.rsp.capAdr, ack := true, st := .idle } := by
  obtain ⟨o, ho, -⟩ := exec_req hi s
  have hr : retireRead (present o s) = .next t := by rw [← h, ho, rspStep, present_rsp, hst]
  obtain ⟨-, ht⟩ := accessing_eq_next hr
  cases ht
  rw [memRead_present]
  rfl

/-- Whatever bus command is on the lines, a pending write retires (42_bus_responder.md R121). -/
theorem exec_req_of_writePending (hst : s.rsp.st = .writePending) :
    t.rsp = { s.rsp with ack := true, st := .idle } ∧ t.mm = storedMap s := by
  obtain ⟨o, ho, -⟩ := exec_req hi s
  have hr : retireWrite (present o s) = .next t := by rw [← h, ho, rspStep, present_rsp, hst]
  refine ⟨?_, by rw [retireWrite_mm hr, storedMap_present]⟩
  obtain ⟨-, ht⟩ := accessing_eq_next hr
  cases ht
  rfl

end Pending

/-- Settles O24: accept, retire, accept, retire; the second retire reads the map that the first one
stored. -/
theorem readAfterWriteReturnsTheLanes : Obligations.ReadAfterWriteReturnsTheLanes := by
  intro sel sel' adr adr' wdata wdata' j k s t u v x hst hkey hj hk hwrite hretire hread hlast
  cases (exec_write_of_idle hst sel adr wdata).symm.trans hwrite
  obtain ⟨hu, hmm⟩ := exec_req_of_writePending hj hretire rfl
  have hidle : u.rsp.st = .idle := by rw [hu]
  cases (exec_read_of_idle hidle sel' adr' wdata').symm.trans hread
  rw [exec_req_of_readPending hk hlast rfl]
  refine ⟨rfl, ?_⟩
  show memRead u adr' = _
  rw [memRead_of_mm hmm, memRead_memWriteMasked]
  exact if_pos hkey

end Sys2Proof.Machine

/-! SUPPORT. Proofs of the statements of `30_encoding.md`: the two round trips between operations and
bytes, the opcode table, a bus command and its micro-operation, placed words, and image text. -/

namespace Sys2Proof

/-! ### The fields of a request word -/

section Fields
variable (cyc stb we : Bool) (sel : LaneSel) (adr wdata : Word)

theorem reqWord_cyc : (reqWord cyc stb we sel adr wdata).getLsbD 70 = cyc := reqWord_bit _ _ _ _ _ _ _ (by decide)
theorem reqWord_stb : (reqWord cyc stb we sel adr wdata).getLsbD 69 = stb := reqWord_bit _ _ _ _ _ _ _ (by decide)
theorem reqWord_we : (reqWord cyc stb we sel adr wdata).getLsbD 68 = we := reqWord_bit _ _ _ _ _ _ _ (by decide)

theorem reqWord_sel : (reqWord cyc stb we sel adr wdata).extractLsb' 64 4 = sel := by
  apply BitVec.eq_of_getLsbD_eq
  intro k hk
  have hlow : ¬ 64 + k < 32 ∧ ¬ 64 + k < 64 ∧ 64 + k < 68 := by omega
  rw [BitVec.getLsbD_extractLsb', reqWord_bit _ _ _ _ _ _ _ (by omega)]
  simp [hk, hlow]

theorem reqWord_adr : (reqWord cyc stb we sel adr wdata).extractLsb' 32 32 = adr := by
  apply BitVec.eq_of_getLsbD_eq
  intro k hk
  have hlow : ¬ 32 + k < 32 ∧ 32 + k < 64 := by omega
  rw [BitVec.getLsbD_extractLsb', reqWord_bit _ _ _ _ _ _ _ (by omega)]
  simp [hk, hlow]

theorem reqWord_wdata : (reqWord cyc stb we sel adr wdata).extractLsb' 0 32 = wdata := by
  apply BitVec.eq_of_getLsbD_eq
  intro k hk
  rw [BitVec.getLsbD_extractLsb', reqWord_bit _ _ _ _ _ _ _ (by omega)]
  simp [hk]

theorem decodeReq_nopNoCyc : decodeReq (reqWord false stb we sel adr wdata) = .nopNoCyc stb we sel adr wdata := by
  simp only [decodeReq, reqWord_cyc, reqWord_stb, reqWord_we, reqWord_sel, reqWord_adr, reqWord_wdata]
theorem decodeReq_nopNoStb : decodeReq (reqWord true false we sel adr wdata) = .nopNoStb we sel adr wdata := by
  simp only [decodeReq, reqWord_cyc, reqWord_stb, reqWord_we, reqWord_sel, reqWord_adr, reqWord_wdata]
theorem decodeReq_read : decodeReq (reqWord true true false sel adr wdata) = .read sel adr wdata := by
  simp only [decodeReq, reqWord_cyc, reqWord_stb, reqWord_we, reqWord_sel, reqWord_adr, reqWord_wdata]
theorem decodeReq_write : decodeReq (reqWord true true true sel adr wdata) = .write sel adr wdata := by
  simp only [decodeReq, reqWord_cyc, reqWord_stb, reqWord_we, reqWord_sel, reqWord_adr, reqWord_wdata]

end Fields

/-- Every request word is made of its six fields. -/
theorem exists_reqWord (w : BitVec 71) : ∃ cyc stb we sel adr wdata, reqWord cyc stb we sel adr wdata = w := by
  refine ⟨w.getLsbD 70, w.getLsbD 69, w.getLsbD 68, w.extractLsb' 64 4, w.extractLsb' 32 32, w.extractLsb' 0 32, ?_⟩
  apply BitVec.eq_of_getLsbD_eq
  intro k hk
  rw [reqWord_bit _ _ _ _ _ _ _ hk]
  simp only [BitVec.getLsbD_extractLsb']
  split_ifs
  · simp [*]
  · have hadr : k - 32 < 32 ∧ 32 + (k - 32) = k := by omega
    simp [hadr]
  · have hsel : k - 64 < 4 ∧ 64 + (k - 64) = k := by omega
    simp [hsel]
  · simp [*]
  · simp [*]
  · have hcyc : k = 70 := by omega
    simp [hcyc]

/-! ### Dispatch words -/

theorem decodeStep_idleHoldNoCyc : ∀ stb we : Bool,
    decodeStep (dispatchWord 0b00#2 false stb we) = .idleHoldNoCyc stb we := by decide
theorem decodeStep_idleHoldNoStb : ∀ we : Bool,
    decodeStep (dispatchWord 0b00#2 true false we) = .idleHoldNoStb we := by decide
theorem decodeStep_retireRead : ∀ cyc stb we : Bool,
    decodeStep (dispatchWord 0b01#2 cyc stb we) = .retireRead cyc stb we := by decide
theorem decodeStep_retireWrite : ∀ cyc stb we : Bool,
    decodeStep (dispatchWord 0b10#2 cyc stb we) = .retireWrite cyc stb we := by decide
theorem decodeStep_reservedSt3 : ∀ cyc stb we : Bool,
    decodeStep (dispatchWord 0b11#2 cyc stb we) = .reservedSt3 cyc stb we := by decide

/-! ### Numbers -/

theorem decodeBits_req (w : BitVec 71) : decodeBits .req w.toNat = decodeReq w := by
  rw [decodeBits, BitVec.ofNat_toNat, BitVec.setWidth_eq]

theorem decodeBits_step (w : BitVec 5) : decodeBits .step w.toNat = decodeStep w := by
  rw [decodeBits, BitVec.ofNat_toNat, BitVec.setWidth_eq]

/-- The number of an operation is read back as that operation. -/
theorem decodeBits_encodeBits (i : Instr) : decodeBits i.format (encodeBits i) = i := by
  cases i with
  | nopNoCyc stb we sel adr wdata => exact (decodeBits_req _).trans (decodeReq_nopNoCyc stb we sel adr wdata)
  | nopNoStb we sel adr wdata => exact (decodeBits_req _).trans (decodeReq_nopNoStb we sel adr wdata)
  | read sel adr wdata => exact (decodeBits_req _).trans (decodeReq_read sel adr wdata)
  | write sel adr wdata => exact (decodeBits_req _).trans (decodeReq_write sel adr wdata)
  | idleHoldNoCyc stb we => exact (decodeBits_step _).trans (decodeStep_idleHoldNoCyc stb we)
  | idleHoldNoStb we => exact (decodeBits_step _).trans (decodeStep_idleHoldNoStb we)
  | acceptRead => rfl
  | acceptWrite => rfl
  | retireRead cyc stb we => exact (decodeBits_step _).trans (decodeStep_retireRead cyc stb we)
  | retireWrite cyc stb we => exact (decodeBits_step _).trans (decodeStep_retireWrite cyc stb we)
  | reservedSt3 cyc stb we => exact (decodeBits_step _).trans (decodeStep_reservedSt3 cyc stb we)
  | ph0 => rfl
  | ph1 => rfl
  | ph2 => rfl
  | ph3 => rfl

theorem encodeBits_decodeReq (w : BitVec 71) : (decodeReq w).format = .req ∧ encodeBits (decodeReq w) = w.toNat := by
  obtain ⟨cyc, stb, we, sel, adr, wdata, rfl⟩ := exists_reqWord w
  match cyc, stb, we with
  | false, stb, we => rw [decodeReq_nopNoCyc]; exact ⟨rfl, rfl⟩
  | true, false, we => rw [decodeReq_nopNoStb]; exact ⟨rfl, rfl⟩
  | true, true, false => rw [decodeReq_read]; exact ⟨rfl, rfl⟩
  | true, true, true => rw [decodeReq_write]; exact ⟨rfl, rfl⟩

theorem encodeBits_decodeStep :
    ∀ w : BitVec 5, (decodeStep w).format = .step ∧ encodeBits (decodeStep w) = w.toNat := by decide

theorem encodeBits_decodePhase :
    ∀ w : PhaseIndex, (decodePhase w).format = .phase ∧ encodeBits (decodePhase w) = w.toNat := by decide

theorem encodeBits_decodeBits {f : Format} {n : Nat} (hn : n < 2 ^ f.width) :
    (decodeBits f n).format = f ∧ encodeBits (decodeBits f n) = n := by
  cases f with
  | req =>
    obtain ⟨hf, hbits⟩ := encodeBits_decodeReq (BitVec.ofNat 71 n)
    exact ⟨hf, hbits.trans (Nat.mod_eq_of_lt hn)⟩
  | step =>
    obtain ⟨hf, hbits⟩ := encodeBits_decodeStep (BitVec.ofNat 5 n)
    exact ⟨hf, hbits.trans (Nat.mod_eq_of_lt hn)⟩
  | phase =>
    obtain ⟨hf, hbits⟩ := encodeBits_decodePhase (BitVec.ofNat 2 n)
    exact ⟨hf, hbits.trans (Nat.mod_eq_of_lt hn)⟩

/-! ### Byte strings -/

/-- What a format accepts: a string of its length without a bit above its width, read as a number. -/
theorem decode_eq_ok_iff {f : Format} {bs : List Byte} {i : Instr} :
    decode f bs = .ok i ↔ bs.length = f.bytes ∧ bytesToNat bs < 2 ^ f.width ∧ decodeBits f (bytesToNat bs) = i := by
  unfold decode
  split_ifs with hlen hpad
  · simp [hlen]
  · simp [Nat.not_lt.2 hpad]
  · simp [not_not.1 hlen, Nat.lt_of_not_le hpad]

/-- Every operation keeps to its format's length and width: the constructors' lemmas together. -/
theorem Laws.EncodeLength.statement (i : Instr) : Statement i := by
  cases i with
  | nopNoCyc stb we sel adr wdata => exact nopNoCyc stb we sel adr wdata
  | nopNoStb we sel adr wdata => exact nopNoStb we sel adr wdata
  | read sel adr wdata => exact read sel adr wdata
  | write sel adr wdata => exact write sel adr wdata
  | idleHoldNoCyc stb we => exact idleHoldNoCyc stb we
  | idleHoldNoStb we => exact idleHoldNoStb we
  | acceptRead => exact acceptRead
  | acceptWrite => exact acceptWrite
  | retireRead cyc stb we => exact retireRead cyc stb we
  | retireWrite cyc stb we => exact retireWrite cyc stb we
  | reservedSt3 cyc stb we => exact reservedSt3 cyc stb we
  | ph0 => exact ph0
  | ph1 => exact ph1
  | ph2 => exact ph2
  | ph3 => exact ph3

theorem encodeBits_lt (i : Instr) : encodeBits i < 2 ^ i.format.width := (Laws.EncodeLength.statement i).2

theorem bytesToNat_encode (i : Instr) : bytesToNat (encode i) = encodeBits i :=
  bytesToNat_natToBytes _ _ ((encodeBits_lt i).trans_le (format_fits i.format))

/-- Settles O1: the bytes hold the whole number, and the number's fields are the operation's operands. -/
theorem decodeOfEncode : Obligations.DecodeOfEncode := by
  intro i
  rw [decode_eq_ok_iff, bytesToNat_encode]
  exact ⟨(Laws.EncodeLength.statement i).1, encodeBits_lt i, decodeBits_encodeBits i⟩

/-- Settles O2: an accepted string's number is the encoding of its reading, and its bytes are the number's. -/
theorem encodeOfDecode : Obligations.EncodeOfDecode := by
  intro f bs i h
  obtain ⟨hlen, hlt, rfl⟩ := decode_eq_ok_iff.1 h
  obtain ⟨hf, hbits⟩ := encodeBits_decodeBits hlt
  refine ⟨hf, ?_⟩
  rw [encode, hf, hbits, ← hlen, natToBytes_bytesToNat]

/-- Settles O4: each word is the encoding of its operation. -/
theorem vectorWordsDecode : Obligations.VectorWordsDecode :=
  ⟨decodeOfEncode (.nopNoCyc false false 0 0 0), decodeOfEncode (.nopNoStb true 0xF 0xFFFFFFFF 0xFFFFFFFF),
    decodeOfEncode (.read 0 0x100 0), decodeOfEncode (.write 0xF 0x100 0x11223344),
    decodeOfEncode (.idleHoldNoStb true), decodeOfEncode .acceptRead, decodeOfEncode .acceptWrite,
    decodeOfEncode (.retireRead true true true), decodeOfEncode (.retireWrite false false false),
    decodeOfEncode .ph2⟩

/-! ### The opcode table -/

theorem reqWord_bit_of_controls (cyc stb we : Bool) (sel : LaneSel) (adr wdata : Word) {k : Nat} (hk : 68 ≤ k) :
    (reqWord cyc stb we sel adr wdata).getLsbD k = (reqWord cyc stb we 0 0 0).getLsbD k := by
  by_cases hw : k < 71
  · have hlow : ¬ k < 32 ∧ ¬ k < 64 ∧ ¬ k < 68 := by omega
    rw [reqWord_bit _ _ _ _ _ _ _ hw, reqWord_bit _ _ _ _ _ _ _ hw]
    simp [hlow]
  · rw [BitVec.getLsbD_of_ge _ _ (by omega), BitVec.getLsbD_of_ge _ _ (by omega)]

/-- A row of REQ looks at the control lines only. -/
theorem holds_reqWord {r : TableRow} (hr : r ∈ reqRows) (cyc stb we : Bool) (sel : LaneSel) (adr wdata : Word) :
    r.holds (reqWord cyc stb we sel adr wdata).toNat = r.holds (reqWord cyc stb we 0 0 0).toNat := by
  have hmask : ∀ r ∈ reqRows, ∀ k < 68, r.mask.testBit k = false := by decide
  have hand : (reqWord cyc stb we sel adr wdata).toNat &&& r.mask = (reqWord cyc stb we 0 0 0).toNat &&& r.mask := by
    apply Nat.eq_of_testBit_eq
    intro k
    rw [Nat.testBit_and, Nat.testBit_and]
    by_cases hk : k < 68
    · simp [hmask r hr k hk]
    · have hbit := reqWord_bit_of_controls cyc stb we sel adr wdata (Nat.not_lt.1 hk)
      exact congrArg (· && r.mask.testBit k) hbit
  rw [TableRow.holds, hand, TableRow.holds]

theorem mnemonic_decodeReq (cyc stb we : Bool) (sel : LaneSel) (adr wdata : Word) :
    (decodeReq (reqWord cyc stb we sel adr wdata)).mnemonic = (decodeReq (reqWord cyc stb we 0 0 0)).mnemonic := by
  match cyc, stb, we with
  | false, stb, we => rw [decodeReq_nopNoCyc, decodeReq_nopNoCyc]; rfl
  | true, false, we => rw [decodeReq_nopNoStb, decodeReq_nopNoStb]; rfl
  | true, true, false => rw [decodeReq_read, decodeReq_read]; rfl
  | true, true, true => rw [decodeReq_write, decodeReq_write]; rfl

theorem reqRows_of_controls : ∀ cyc stb we : Bool,
    (reqRows.filter fun r => r.holds (reqWord cyc stb we 0 0 0).toNat).map TableRow.mnemonic =
      [(decodeReq (reqWord cyc stb we 0 0 0)).mnemonic] := by decide

/-- Settles O3: the rows and the decoder of REQ look at the control lines only, of which there are eight
values; STEP has 32 words and PHASE 4. -/
theorem everyWordInExactlyOneRow : Obligations.EveryWordInExactlyOneRow := by
  refine ⟨fun w => ?_, by decide, by decide⟩
  obtain ⟨cyc, stb, we, sel, adr, wdata, rfl⟩ := exists_reqWord w
  rw [List.filter_congr fun r hr => holds_reqWord hr cyc stb we sel adr wdata, mnemonic_decodeReq]
  exact reqRows_of_controls cyc stb we

end Sys2Proof

namespace Sys2Proof.Machine

/-! ### A bus command at a boundary -/

/-- The command that a request word spells is executed as `RSP.STEP` on the word's lines. -/
theorem exec_decodeReq (cyc stb we : Bool) (sel : LaneSel) (adr wdata : Word) (s : State) :
    exec (decodeReq (reqWord cyc stb we sel adr wdata)) s = rspStep (presentReq cyc stb we sel adr wdata s) := by
  match cyc, stb, we with
  | false, stb, we => rw [decodeReq_nopNoCyc]; rfl
  | true, false, we => rw [decodeReq_nopNoStb]; rfl
  | true, true, false => rw [decodeReq_read]; rfl
  | true, true, true => rw [decodeReq_write]; rfl

/-- Settles O19: both are `RSP.STEP`; the command presents the lines that are on the port already. -/
theorem commandIsItsMicroOperation : Obligations.CommandIsItsMicroOperation := by
  intro s
  rw [exec_stepInstr]
  exact exec_decodeReq _ _ _ _ _ _ s

/-! ### Placed words -/

theorem tableFormat_width (f : Format) (n : Nat) : tableFormat f.width n = some f := by cases f <;> rfl

theorem decodeTableWord_encodeBits (i : Instr) : decodeTableWord i.format.width (encodeBits i) = some i := by
  have hfits : ¬ 256 ^ i.format.bytes ≤ encodeBits i :=
    Nat.not_le.2 ((encodeBits_lt i).trans_le (format_fits i.format))
  have hdec : decode i.format (natToBytes i.format.bytes (encodeBits i)) = .ok i := decodeOfEncode i
  simp only [decodeTableWord, tableFormat_width, if_neg hfits, hdec]

theorem withFetchWord_encodeBits (s : State) (i : Instr) :
    s.withFetchWord i.format.width (encodeBits i) = placeInstr i s := by
  simp only [State.withFetchWord, placeTableWord, decodeTableWord_encodeBits]

/-- The tick count that `readyAt` leaves is the one before a tick of the index. -/
theorem readyAt_nextIndex {k : Nat} (hk : k < 4) (s : State) : ((readyAt k s).clk.tick + 1) % 4 = k := by
  show (4 * (s.clk.tick / 4) + (k + 3) % 4 + 1) % 4 = k
  omega

theorem phaseInstr_placePhase {k : Nat} (hk : k < 4) (s : State) :
    phaseInstr (countTick (placePhase k s)) = decodePhase (BitVec.ofNat 2 k) :=
  congrArg (fun n => decodePhase (BitVec.ofNat 2 n)) (readyAt_nextIndex hk s)

theorem isBoundary_placeAtBoundary (t : RspState) (o : Lines) (s : State) :
    isBoundary (clkAdvance (placeAtBoundary t o s)) = true :=
  beq_iff_eq.2 (readyAt_nextIndex s.cfg.boundaryIndex.isLt s)

/-- A bus command is placed in `Idle` on lines that spell it. -/
theorem placeInstr_req {i : Instr} (hi : i.format = .req) (s : State) :
    ∃ o : Lines, placeInstr i s = placeAtBoundary .idle o s ∧
      decodeReq (reqWord o.cyc o.stb o.we o.sel o.adr o.wdata) = i := by
  cases i with
  | nopNoCyc stb we sel adr wdata => exact ⟨_, rfl, decodeReq_nopNoCyc stb we sel adr wdata⟩
  | nopNoStb we sel adr wdata => exact ⟨_, rfl, decodeReq_nopNoStb we sel adr wdata⟩
  | read sel adr wdata => exact ⟨_, rfl, decodeReq_read sel adr wdata⟩
  | write sel adr wdata => exact ⟨_, rfl, decodeReq_write sel adr wdata⟩
  | _ => cases hi

/-- A micro-operation is placed by a responder state and lines that make its dispatch word. -/
theorem placeInstr_step {i : Instr} (hi : i.format = .step) (hwf : i.wellFormed = true) (s : State) :
    ∃ (t : RspState) (o : Lines), placeInstr i s = placeAtBoundary t o s ∧
      decodeStep (dispatchWord (stBits t) o.cyc o.stb o.we) = i := by
  cases i with
  | idleHoldNoCyc stb we => exact ⟨_, _, rfl, decodeStep_idleHoldNoCyc stb we⟩
  | idleHoldNoStb we => exact ⟨_, _, rfl, decodeStep_idleHoldNoStb we⟩
  | acceptRead => exact ⟨_, _, rfl, rfl⟩
  | acceptWrite => exact ⟨_, _, rfl, rfl⟩
  | retireRead cyc stb we => exact ⟨_, _, rfl, decodeStep_retireRead cyc stb we⟩
  | retireWrite cyc stb we => exact ⟨_, _, rfl, decodeStep_retireWrite cyc stb we⟩
  | reservedSt3 cyc stb we => cases hwf
  | _ => cases hi

theorem placeInstr_phase {i : Instr} (hi : i.format = .phase) (s : State) :
    ∃ k < 4, placeInstr i s = placePhase k s ∧ decodePhase (BitVec.ofNat 2 k) = i := by
  cases i with
  | ph0 => exact ⟨0, by decide, rfl, rfl⟩
  | ph1 => exact ⟨1, by decide, rfl, rfl⟩
  | ph2 => exact ⟨2, by decide, rfl, rfl⟩
  | ph3 => exact ⟨3, by decide, rfl, rfl⟩
  | _ => cases hi

/-- Settles O44: the tick count, the responder state and the queued lines of a placed word are those
that select it. -/
theorem placedWordIsSelectedNext : Obligations.PlacedWordIsSelectedNext := by
  intro s s1 i hwf h
  rw [withFetchWord_encodeBits] at h ⊢
  cases (clockStep_eq _).symm.trans h
  cases hi : i.format with
  | req =>
    obtain ⟨o, hplace, hsel⟩ := placeInstr_req hi s
    rw [hplace]
    exact ⟨rfl, nofun, nofun, fun _ => ⟨isBoundary_placeAtBoundary .idle o s, rfl, hsel⟩⟩
  | step =>
    obtain ⟨t, o, hplace, hsel⟩ := placeInstr_step hi hwf s
    rw [hplace]
    exact ⟨rfl, nofun, fun _ => ⟨isBoundary_placeAtBoundary t o s, hsel⟩, nofun⟩
  | phase =>
    obtain ⟨k, hk, hplace, hsel⟩ := placeInstr_phase hi s
    rw [hplace]
    exact ⟨rfl, fun _ => (phaseInstr_placePhase hk s).trans hsel, nofun, nofun⟩

/-! ### Image text -/

theorem isImageSpace_false_iff (c : Char) : isImageSpace c = false ↔ c ∉ imageSpaces := by
  rw [← isImageSpace_iff, Bool.not_eq_true]

theorem tokens_spaces {w : List Char} (hw : ∀ c ∈ w, c ∈ imageSpaces) (rest : List Char) :
    tokens (w ++ rest) = tokens rest :=
  tokensFrom_spaces w rest fun c hc => (isImageSpace_iff c).2 (hw c hc)

/-- A token that has been read whole is the next one. -/
theorem tokensFrom_end {cur rest : List Char} (hcur : cur ≠ [])
    (hrest : rest = [] ∨ ∃ c r, rest = c :: r ∧ c ∈ imageSpaces) :
    tokensFrom cur rest = cur.reverse :: tokens rest := by
  have hne : cur.isEmpty = false := List.isEmpty_eq_false_iff.2 hcur
  rcases hrest with rfl | ⟨c, r, rfl, hc⟩
  · simp [tokens, tokensFrom, hne]
  · simp [tokens, tokensFrom, hne, (isImageSpace_iff c).2 hc]

theorem tokens_run {t rest : List Char} (ht : t ≠ []) (hchars : ∀ c ∈ t, c ∉ imageSpaces)
    (hrest : rest = [] ∨ ∃ c r, rest = c :: r ∧ c ∈ imageSpaces) : tokens (t ++ rest) = t :: tokens rest := by
  rw [tokens, tokensFrom_run [] t rest fun c hc => (isImageSpace_false_iff c).2 (hchars c hc), List.append_nil,
    tokensFrom_end (List.reverse_ne_nil_iff.2 ht) hrest, List.reverse_reverse]

/-- The digit a character has is the one it writes in either table: the decimal digits stand at 48 in the
character set, the lower-case letters of base 16 at 97, the upper-case ones at 65. -/
theorem hexDigit_eq_some_iff {c : Char} {d : Nat} : hexDigit c = some d ↔ writesDigit c d := by
  constructor
  · have hdecimal : ∀ d < 10, lowerDigits[d]? = some (Char.ofNat (d + 48)) := by decide
    have hlower : ∀ d < 16, 10 ≤ d → lowerDigits[d]? = some (Char.ofNat (d + 87)) := by decide
    have hupper : ∀ d < 16, 10 ≤ d → upperDigits[d]? = some (Char.ofNat (d + 55)) := by decide
    intro h
    simp only [hexDigit] at h
    split_ifs at h <;> cases h
    · left
      rw [hdecimal _ (by omega), Nat.sub_add_cancel (by omega), Char.ofNat_toNat]
    · left
      rw [hlower _ (by omega) (by omega), Nat.sub_add_cancel (by omega), Char.ofNat_toNat]
    · right
      rw [hupper _ (by omega) (by omega), Nat.sub_add_cancel (by omega), Char.ofNat_toNat]
  · have hlower : ∀ d : Fin 16, hexDigit lowerDigits[d] = some d.val := by decide
    have hupper : ∀ d : Fin 16, hexDigit upperDigits[d] = some d.val := by decide
    rintro (h | h) <;> obtain ⟨hd, rfl⟩ := List.getElem?_eq_some_iff.1 h
    · exact hlower ⟨d, hd⟩
    · exact hupper ⟨d, hd⟩

/-- The number that digits of base 16 write after those of `acc`, the most significant first. -/
def digitsValue (acc : Nat) (ds : List Nat) : Nat := ds.foldl (fun v d => 16 * v + d) acc

theorem digitsValue_lt {t : List Char} {ds : List Nat} (hds : List.Forall₂ writesDigit t ds) (acc : Nat) :
    digitsValue acc ds < (acc + 1) * 16 ^ ds.length := by
  induction hds generalizing acc with
  | nil => simp [digitsValue]
  | @cons _ d _ ds hd _ ih =>
    have hd : d < 16 := writesDigit_lt hd
    calc digitsValue (16 * acc + d) ds
      _ < (16 * acc + d + 1) * 16 ^ ds.length := ih _
      _ ≤ (16 * (acc + 1)) * 16 ^ ds.length := Nat.mul_le_mul_right _ (by omega)
      _ = (acc + 1) * 16 ^ (ds.length + 1) := by ring

theorem hexValue_eq_some_iff {t : List Char} {acc v : Nat} :
    hexValue acc t = some v ↔ ∃ ds, List.Forall₂ writesDigit t ds ∧ v = digitsValue acc ds := by
  induction t generalizing acc with
  | nil => simp [hexValue, digitsValue, eq_comm]
  | cons c t ih =>
    constructor
    · intro h
      cases hc : hexDigit c with
      | none => simp [hexValue, hc] at h
      | some d =>
        obtain ⟨ds, hds, rfl⟩ := ih.1 (by simpa [hexValue, hc] using h)
        exact ⟨d :: ds, .cons (hexDigit_eq_some_iff.1 hc) hds, rfl⟩
    · rintro ⟨_, _ | ⟨hd, hds⟩, rfl⟩
      rw [hexValue, hexDigit_eq_some_iff.2 hd]
      exact ih.2 ⟨_, hds, rfl⟩

/-- At most eight digits write a number that a word holds. -/
theorem digitsValue_lt_word {t : List Char} {ds : List Nat} (hds : List.Forall₂ writesDigit t ds)
    (hlen : ds.length ≤ 8) : digitsValue 0 ds < 2 ^ 32 := by
  calc digitsValue 0 ds
    _ < (0 + 1) * 16 ^ ds.length := digitsValue_lt hds 0
    _ = 16 ^ ds.length := Nat.one_mul _
    _ ≤ 16 ^ 8 := Nat.pow_le_pow_right (by decide) hlen
    _ = 2 ^ 32 := by decide

theorem parseToken_eq_some_iff {t : List Char} {w : Word} :
    parseToken t = some w ↔ (1 ≤ t.length ∧ t.length ≤ 8) ∧ ∃ v, hexValue 0 t = some v ∧ BitVec.ofNat 32 v = w := by
  unfold parseToken
  split_ifs with hlen
  · cases hexValue 0 t <;> simp [hlen]
  · simp [hlen]

/-- Settles O54: the token reader on whitespace and on a run, and the digits of a token. -/
theorem imageTokenGrammar : Obligations.ImageTokenGrammar := by
  refine ⟨fun w hw => ?_, fun w t rest hw ht hchars hrest => ?_, fun t w => ?_⟩
  · rw [← List.append_nil w, tokens_spaces hw]; rfl
  · rw [List.append_assoc, tokens_spaces hw, tokens_run ht hchars hrest]
  · rw [parseToken_eq_some_iff]
    constructor
    · rintro ⟨⟨hpos, hle⟩, v, hv, rfl⟩
      obtain ⟨ds, hds, rfl⟩ := hexValue_eq_some_iff.1 hv
      rw [hds.length_eq] at hpos hle
      exact ⟨ds, hpos, hle, hds, Nat.mod_eq_of_lt (digitsValue_lt_word hds hle)⟩
    · rintro ⟨ds, hpos, hle, hds, hw⟩
      have hv : hexValue 0 t = some w.toNat := hexValue_eq_some_iff.2 ⟨ds, hds, hw⟩
      exact ⟨hds.length_eq ▸ ⟨hpos, hle⟩, w.toNat, hv, by simp⟩

end Sys2Proof.Machine

/-! SUPPORT. Proofs of the statements of `40_memory_model_ops.md`: the image load, the word write and the
masked write, reads of unmapped words, the domain of the map, and the events of a tick. -/

namespace Sys2Proof.Machine

/-! ### The image load -/

/-- A malformed token and the tokens after it write nothing (40_memory_model_ops.md R87). -/
theorem loadTokens_append_malformed {bad : List Char} (hbad : parseToken bad = none) (base : Word)
    (good rest : List (List Char)) (i : Nat) (s : State) :
    loadTokens base i (good ++ bad :: rest) s = loadTokens base i good s := by
  induction good generalizing i s with
  | nil => simp [loadTokens, hbad]
  | cons t ts ih =>
    rw [List.cons_append, loadTokens, loadTokens]
    cases parseToken t with
    | none => rfl
    | some w => exact ih _ _

/-- Settles O7, by induction on the tokens before the malformed one. -/
theorem loadErrorsAreSilent : Obligations.LoadErrorsAreSilent :=
  ⟨fun _ _ => rfl, fun base s good _ rest hbad => loadTokens_append_malformed hbad base good rest 0 s⟩

/-! ### The word write -/

theorem mem_mapped_memWriteWord (a w : Word) (s : State) (k : Nat) :
    k ∈ (memWriteWord a w s).mm.mapped ↔ k = (key a).toNat ∨ k ∈ s.mm.mapped := mem_insertKey

/-- A word write appends at most its own store log (40_memory_model_ops.md R83). -/
theorem memWriteWord_events (a w : Word) (s : State) :
    (memWriteWord a w s).diag.events =
      (if s.mm.logStores then [Event.storeLog (key a) (memRead s a) w] else []) ++ s.diag.events := by
  cases hlog : s.mm.logStores <;> simp [memWriteWord, logStore, hlog]

/-- Settles O8: what a read, the domain, the events and each other field are after the write. -/
theorem writeWordReplacesItsWord : Obligations.WriteWordReplacesItsWord := fun a w s =>
  ⟨fun b => memRead_memWriteWord b a w s, mem_mapped_memWriteWord a w s, memWriteWord_events a w s,
    memWriteWord_rsp a w s, memWriteWord_clk a w s, memWriteWord_run a w s, memWriteWord_cfg a w s,
    memWriteWord_env a w s, rfl, rfl, rfl, memWriteWord_diag a w s⟩

/-! ### The masked write -/

@[simp] theorem memWriteMasked_zero (a w : Word) (s : State) : memWriteMasked a 0#4 w s = s := if_pos rfl

theorem memWriteMasked_of_ne_zero {be : LaneSel} (hbe : be ≠ 0#4) (a w : Word) (s : State) :
    memWriteMasked a be w s = memWriteWord a (mergeLanes be (memRead s a) w) s := if_neg hbe

theorem storesTo_iff (a : Word) (be : LaneSel) (b : Word) :
    storesTo a be b = true ↔ key b = key a ∧ selectsByte be (b.toNat % 4) = true := by
  rw [storesTo, Bool.and_eq_true, beq_iff_eq]

/-- Settles O9: the lane law is that of `memByte_memWriteMasked`; with every lane selected the merge is
the new word. -/
theorem maskedWriteLaneByLane : Obligations.MaskedWriteLaneByLane := by
  intro a be w s
  constructor
  · intro b
    rw [memByte_memWriteMasked]
    exact if_congr (storesTo_iff a be b) rfl rfl
  · rw [memWriteMasked_of_ne_zero (by decide), mergeLanes_all]

/-- Settles O10: the retire performs a masked write that is no write. -/
theorem zeroByteEnableChangesNothing : Obligations.ZeroByteEnableChangesNothing := by
  refine ⟨memWriteMasked_zero, fun s hsel => ⟨acceptWrite s, rfl, rfl, hsel, rfl⟩, ?_⟩
  intro cyc stb we s hsel hadr
  have hretire := retireWrite_of_readable (refusesAddr_false hadr)
  rw [hsel, memWriteMasked_zero] at hretire
  exact ⟨_, hretire, rfl, rfl, rfl, rfl⟩

/-! ### Reads of unmapped words -/

/-- Settles O53: a read sees the map at the key of its address only, and `RETIRE_READ` drives that read. -/
theorem unmappedReadsAreDefault : Obligations.UnmappedReadsAreDefault :=
  ⟨fun _ _ => memRead_unmapped, fun _ _ s => memRead_congr_key s, fun _ _ _ _ hunmapped hadr =>
    ⟨_, retireRead_of_readable (refusesAddr_false hadr), memRead_unmapped hunmapped, rfl⟩⟩

/-! ### The domain of the map -/

/-- Settles O28: an operation's map is the one it found or that of the captured masked write, which maps
its key unless no lane is selected. -/
theorem onlyRetiringWritesMap : Obligations.OnlyRetiringWritesMap := by
  intro i s t h k
  rw [exec_mm h]
  cases retiresWrite i s with
  | false => simp
  | true => simpa [storedMap] using mem_mapped_memWriteMasked s.rsp.capAdr s.rsp.capSel s.rsp.capDat s k

/-! ### The events of a tick -/

/-- A masked write logs the word it leaves, if a lane is selected (40_memory_model_ops.md R83, R85). -/
theorem memWriteMasked_events (a : Word) (be : LaneSel) (w : Word) (s : State) :
    (memWriteMasked a be w s).diag.events =
      (if s.mm.logStores && be != 0#4 then
        [Event.storeLog (key a) (memRead s a) (mergeLanes be (memRead s a) w)] else []) ++ s.diag.events := by
  by_cases hbe : be = 0#4
  · simp [hbe]
  · simp [memWriteMasked_of_ne_zero hbe, memWriteWord_events, hbe]

/-- Of the micro-operations only the retire of a write emits events. -/
theorem rspStep_diag {s t : State} (h : rspStep s = .next t) :
    t.diag = if s.rsp.st = .writePending then (memWriteMasked s.rsp.capAdr s.rsp.capSel s.rsp.capDat s).diag
      else s.diag := by
  obtain ⟨hst, -, rfl⟩ | ⟨hst, -, -, rfl⟩ | ⟨hst, -, -, rfl⟩ | ⟨hst, -, rfl⟩ | ⟨hst, -, rfl⟩ := rspStep_eq_next h <;>
    rw [hst] <;> rfl

theorem rspStep_events {s t : State} (h : rspStep s = .next t) :
    t.diag.events =
      (if s.rsp.st == .writePending && s.mm.logStores && s.rsp.capSel != 0#4 then
        [Event.storeLog (key s.rsp.capAdr) (memRead s s.rsp.capAdr)
          (mergeLanes s.rsp.capSel (memRead s s.rsp.capAdr) s.rsp.capDat)] else []) ++ s.diag.events := by
  rw [rspStep_diag h]
  by_cases hst : s.rsp.st = .writePending
  · simp [hst, memWriteMasked_events]
  · simp [hst]

/-- After the responder a boundary emits at most the heartbeat of the advanced count (60_exceptions.md
R179). -/
theorem afterResponder_events (s : State) :
    (afterResponder s).diag.events =
      (if heartbeatDue (s.run.cycle + 1) s.cfg.hbCycles then [Event.heartbeat (s.run.cycle + 1)] else []) ++
        s.diag.events :=
  congrArg Diagnostics.events (heartbeat_diag (countCycle (applyReset s)))

@[simp] theorem memRead_clkAdvance (s : State) (a : Word) : memRead (clkAdvance s) a = memRead s a :=
  memRead_of_mm (clkAdvance_mm s) a

/-- Settles O42: the trace ends every tick; at a boundary the heartbeat stands before it, and before that
what `RSP.STEP` logged. -/
theorem eventsOfATick : Obligations.EventsOfATick := by
  intro s t ht h
  obtain ⟨hend, -⟩ | ⟨-, hb, rfl⟩ | ⟨-, hb, u, hu, rfl⟩ := step_eq_next h
  · simp [ht] at hend
  · simp [traceTick_diag, hb]
  · have hf := rspStep_microFrame hu
    have hlog := rspStep_events hu
    simp only [evaluateDevice_rsp, evaluateDevice_mm, evaluateDevice_diag, memRead_evaluateDevice, clkAdvance_rsp,
      clkAdvance_mm, clkAdvance_diag, memRead_clkAdvance] at hlog
    simp [traceTick_diag, afterResponder_events, hf.cfg, hf.clk, hf.run, hlog, hb]

end Sys2Proof.Machine

/-! SUPPORT. Proofs of the statements of `41_clock_phase_generator.md`: what a phase drives, the clock bits
of a tick, and the law of the two clocks. -/

namespace Sys2Proof.Machine

/-! ### The phases -/

/-- The default table counts down: entry `k` is the complement of the two bits of `k` (decision D4). -/
theorem tableEntry_default :
    tableEntry Config.defaultPhaseTable 0 = ⟨true, true⟩ ∧ tableEntry Config.defaultPhaseTable 1 = ⟨true, false⟩ ∧
    tableEntry Config.defaultPhaseTable 2 = ⟨false, true⟩ ∧ tableEntry Config.defaultPhaseTable 3 = ⟨false, false⟩ :=
  ⟨rfl, rfl, rfl, rfl⟩

theorem drivePhase_of_entry {k : Nat} {s : State} {b : ClockBits} (h : tableEntry s.cfg.phaseTable k = b) :
    drivePhase k s = { s with clk := { s.clk with clk1x := b.clk1x, clk2x := b.clk2x } } := by
  rw [drivePhase, h]

/-- Settles O26: the phase of index `k` is `drivePhase k`, which drives the two bits of entry `k`. -/
theorem phasesDriveTheTable : Obligations.PhasesDriveTheTable := by
  constructor
  · intro s
    exact ⟨rfl, rfl, rfl, rfl⟩
  · intro s hdefault
    obtain ⟨h0, h1, h2, h3⟩ := tableEntry_default
    rw [← hdefault] at h0 h1 h2 h3
    exact ⟨congrArg _ (drivePhase_of_entry h0), congrArg _ (drivePhase_of_entry h1),
      congrArg _ (drivePhase_of_entry h2), congrArg _ (drivePhase_of_entry h3)⟩

/-! ### The clock bits of a tick -/

/-- The clock generator after tick `n` of a run with table `p` (41_clock_phase_generator.md R101). -/
def clocksAt (p : PhaseTable) (n : Nat) : ClockGen :=
  { tick := n, clk1x := (tableEntry p (n % 4)).clk1x, clk2x := (tableEntry p (n % 4)).clk2x }

theorem clkAdvance_clk_eq_clocksAt (s : State) : (clkAdvance s).clk = clocksAt s.cfg.phaseTable (s.clk.tick + 1) :=
  clkAdvance_clk s

/-- The clock bits repeat every four ticks (41_clock_phase_generator.md R102). -/
theorem clocksAt_add_four (p : PhaseTable) (n : Nat) : clocksAt p (n + 4) = { clocksAt p n with tick := n + 4 } := by
  simp [clocksAt]

theorem ClockInv.clk_eq {s : State} (hi : ClockInv s) (hpos : 0 < s.clk.tick) :
    s.clk = clocksAt s.cfg.phaseTable s.clk.tick := by
  obtain ⟨h1, h2⟩ := hi hpos
  rw [clocksAt, ← h1, ← h2]

/-- A tick takes the clock generator from one count to the next and leaves the table. -/
theorem step_clocksAt {s t : State} {p : PhaseTable} {n : Nat} (ht : terminated s = false) (h : step s = .next t)
    (hp : s.cfg.phaseTable = p) (hs : s.clk = clocksAt p n) : t.cfg.phaseTable = p ∧ t.clk = clocksAt p (n + 1) := by
  constructor
  · rw [(step_sameSettings h).cfg, hp]
  · rw [step_clk ht h, clkAdvance_clk_eq_clocksAt, hp, hs]; rfl

/-- Settles O34: a tick's first part is `CLK.ADVANCE`, and no later part of it writes the clocks. -/
theorem clockBitsAreAFunctionOfTheIndex : Obligations.ClockBitsAreAFunctionOfTheIndex := by
  intro s s1 t ht hs1 h
  cases (clockStep_eq s).symm.trans hs1
  have hclk := clkAdvance_clk_eq_clocksAt s
  refine ⟨by rw [hclk]; rfl, step_clk ht h, by simp [driven], by simp [driven], ?_⟩
  intro u u1 hp htick hu1
  cases (clockStep_eq u).symm.trans hu1
  have hclk_u : (clkAdvance u).clk = { clocksAt s.cfg.phaseTable (s.clk.tick + 1) with tick := s.clk.tick + 5 } := by
    rw [clkAdvance_clk_eq_clocksAt, hp, htick, ← clocksAt_add_four]
  simp only [driven, hclk, hclk_u, and_self]

/-! ### The law of the two clocks -/

/-- A column is read cyclically, so it does not matter where the reading starts. -/
theorem columnChanges_rotate (b0 b1 b2 b3 : Bool) : columnChanges b1 b2 b3 b0 = columnChanges b0 b1 b2 b3 := by
  unfold columnChanges
  omega

/-- A column changes as often over any four ticks as over the table from entry 0 on. -/
theorem columnChanges_fourTicks (column : ClockBits → Bool) (p : PhaseTable) (n : Nat) :
    columnChanges (column (tableEntry p (n % 4))) (column (tableEntry p ((n + 1) % 4)))
        (column (tableEntry p ((n + 2) % 4))) (column (tableEntry p ((n + 3) % 4))) =
      columnChanges (column p.entry0) (column p.entry1) (column p.entry2) (column p.entry3) := by
  induction n with
  | zero => rfl
  | succ n ih =>
    have hwrap : (n + 1 + 3) % 4 = n % 4 := Nat.add_mod_right n 4
    rw [← ih, hwrap]
    exact columnChanges_rotate _ _ _ _

theorem columnChanges_eq_four {b0 b1 b2 b3 : Bool} (h : columnChanges b0 b1 b2 b3 = 4) :
    (b0 ^^ b1) = true ∧ (b1 ^^ b2) = true ∧ (b2 ^^ b3) = true ∧ (b3 ^^ b0) = true := by
  revert b0 b1 b2 b3
  decide

theorem phaseTable_legal_iff (p : PhaseTable) : p.legal = true ↔
    columnChanges p.entry0.clk1x p.entry1.clk1x p.entry2.clk1x p.entry3.clk1x = 2 ∧
    columnChanges p.entry0.clk2x p.entry1.clk2x p.entry2.clk2x p.entry3.clk2x = 4 := by
  simp [PhaseTable.legal, PhaseTable.clk1xTwice, PhaseTable.clk2xAlways]

/-- Settles O35: four ticks read the table once around, from the entry of the first state, so each clock
changes as often as its column does. -/
theorem twoToOneClockRatio : Obligations.TwoToOneClockRatio := by
  intro s t u v w hlegal hi hpos hs ht hu hv hst htu huv hvw
  obtain ⟨htwice, halways⟩ := (phaseTable_legal_iff s.cfg.phaseTable).1 hlegal
  have hclk_s := hi.clk_eq hpos
  obtain ⟨hp_t, hclk_t⟩ := step_clocksAt hs hst rfl hclk_s
  obtain ⟨hp_u, hclk_u⟩ := step_clocksAt ht htu hp_t hclk_t
  obtain ⟨hp_v, hclk_v⟩ := step_clocksAt hu huv hp_u hclk_u
  obtain ⟨-, hclk_w⟩ := step_clocksAt hv hvw hp_v hclk_v
  rw [← columnChanges_fourTicks ClockBits.clk1x _ s.clk.tick] at htwice
  rw [← columnChanges_fourTicks ClockBits.clk2x _ s.clk.tick] at halways
  rw [clocksAt_add_four] at hclk_w
  rw [hclk_w, hclk_v, hclk_u, hclk_t, hclk_s]
  obtain ⟨h0, h1, h2, h3⟩ := columnChanges_eq_four halways
  exact ⟨h0, h1, h2, h3, htwice⟩

end Sys2Proof.Machine

/-! SUPPORT. Proofs of the statements of `42_bus_responder.md`: what a boundary selects and does in each
state of the responder, the micro-operations, whole transactions, and an isolated read tick by tick. -/

namespace Sys2Proof.Machine

/-! ### What a boundary selects -/

section Selection
variable {s : State}

theorem isRequest_eq_true_iff {o : Lines} : isRequest o = true ↔ o.cyc = true ∧ o.stb = true := Bool.and_eq_true_iff

theorem isRequest_eq_false_iff {o : Lines} : isRequest o = false ↔ o.cyc = false ∨ o.stb = false :=
  Bool.and_eq_false_iff

theorem mnemonic_stepInstr_of_nop (hst : s.rsp.st = .idle) (hnop : isRequest s.env.sampled = false) :
    (stepInstr s).mnemonic = "IDLE_HOLD" := by
  rw [stepInstr, stepWord, hst]
  rcases isRequest_eq_false_iff.1 hnop with hcyc | hstb
  · rw [hcyc, stBits, decodeStep_idleHoldNoCyc]; rfl
  · rw [hstb]
    cases s.env.sampled.cyc with
    | false => rw [stBits, decodeStep_idleHoldNoCyc]; rfl
    | true => rw [stBits, decodeStep_idleHoldNoStb]; rfl

theorem stepInstr_of_request (hst : s.rsp.st = .idle) (hreq : isRequest s.env.sampled = true) :
    stepInstr s = if s.env.sampled.we then .acceptWrite else .acceptRead := by
  obtain ⟨hcyc, hstb⟩ := isRequest_eq_true_iff.1 hreq
  rw [stepInstr, stepWord, hst, hcyc, hstb]
  cases s.env.sampled.we <;> rfl

theorem stepInstr_of_readPending (hst : s.rsp.st = .readPending) :
    stepInstr s = .retireRead s.env.sampled.cyc s.env.sampled.stb s.env.sampled.we := by
  rw [stepInstr, stepWord, hst, stBits, decodeStep_retireRead]

theorem stepInstr_of_writePending (hst : s.rsp.st = .writePending) :
    stepInstr s = .retireWrite s.env.sampled.cyc s.env.sampled.stb s.env.sampled.we := by
  rw [stepInstr, stepWord, hst, stBits, decodeStep_retireWrite]

/-- The unused state bits `11` are those of no responder state (30_encoding.md R62). -/
theorem decodeStep_wellFormed (st : RspState) : ∀ cyc stb we : Bool,
    (decodeStep (dispatchWord (stBits st) cyc stb we)).wellFormed = true := by
  cases st with
  | idle => decide
  | readPending => decide
  | writePending => decide

theorem stepInstr_wellFormed (s : State) : (stepInstr s).wellFormed = true := decodeStep_wellFormed _ _ _ _

end Selection

/-! ### What `RSP.STEP` does in each state -/

section RspStep
variable {s : State}

theorem rspStep_of_nop (hst : s.rsp.st = .idle) (hnop : isRequest s.env.sampled = false) :
    rspStep s = .next (idleHold s) := by
  unfold isRequest at hnop
  rw [rspStep, hst]
  dsimp only
  rw [hnop]
  rfl

theorem rspStep_of_readPending (hst : s.rsp.st = .readPending) : rspStep s = retireRead s := by
  rw [rspStep, hst]

theorem rspStep_of_writePending (hst : s.rsp.st = .writePending) : rspStep s = retireWrite s := by
  rw [rspStep, hst]

/-- From `Idle` a boundary always answers, without acknowledge and without a change of memory. -/
theorem rspStep_of_idle (hst : s.rsp.st = .idle) : ∃ t, rspStep s = .next t ∧ t.rsp.ack = false ∧ t.mm = s.mm := by
  cases hreq : isRequest s.env.sampled with
  | false => exact ⟨_, rspStep_of_nop hst hreq, rfl, rfl⟩
  | true =>
    refine ⟨_, rspStep_of_request hst hreq, ?_⟩
    split <;> exact ⟨rfl, rfl⟩

/-- The responder after the retire of its pending transaction (42_bus_responder.md R120, R121). -/
def retiredResponder (s : State) : Responder :=
  { s.rsp with
    rdata := if s.rsp.st = .readPending then memRead s s.rsp.capAdr else s.rsp.rdata
    ack := true
    st := .idle }

theorem rspStep_rsp_of_pending {t : State} (hst : s.rsp.st ≠ .idle) (h : rspStep s = .next t) :
    t.rsp = retiredResponder s := by
  obtain ⟨hidle, -⟩ | ⟨hidle, -⟩ | ⟨hidle, -⟩ | ⟨hread, -, rfl⟩ | ⟨hwrite, -, rfl⟩ := rspStep_eq_next h
  · exact absurd hidle hst
  · exact absurd hidle hst
  · exact absurd hidle hst
  · simp [retiredResponder, hread]
  · simp [retiredResponder, hwrite]

/-- The retire of a pending transaction does not sample the lines (42_bus_responder.md R116). -/
theorem rspStep_present_of_pending {o : Lines} {t u : State} (hst : s.rsp.st ≠ .idle) (ht : rspStep s = .next t)
    (hu : rspStep (present o s) = .next u) : u.mm = t.mm ∧ u.rsp = t.rsp := by
  constructor
  · rw [rspStep_mm hu, rspStep_mm ht, storedMap_present]; rfl
  · rw [rspStep_rsp_of_pending (s := present o s) hst hu, rspStep_rsp_of_pending hst ht]; rfl

end RspStep

/-! ### The micro-operations -/

/-- Settles O11: both rows are `idleHold`, which writes acknowledge alone. -/
theorem idleHoldClearsAcknowledge : Obligations.IdleHoldClearsAcknowledge := fun _ _ _ => ⟨rfl, rfl⟩

/-- Settles O12: the operation is `acceptRead`, written out. -/
theorem acceptReadCaptures : Obligations.AcceptReadCaptures := fun _ => rfl

/-- Settles O13: the operation is `acceptWrite`, written out. -/
theorem acceptWriteCaptures : Obligations.AcceptWriteCaptures := fun _ => rfl

/-- Settles O14: the captured address is not refused. -/
theorem retireReadDrivesTheWord : Obligations.RetireReadDrivesTheWord :=
  fun _ _ _ _ hadr => retireRead_of_readable (refusesAddr_false hadr)

/-- Settles O15: the captured address is not refused, and the masked write obeys the lane law. -/
theorem retireWriteStoresTheLanes : Obligations.RetireWriteStoresTheLanes := by
  intro cyc stb we s hadr
  refine ⟨_, retireWrite_of_readable (refusesAddr_false hadr), rfl, fun a => ?_, by simp, by simp, by simp, by simp⟩
  rw [memByte_setResponder, memByte_memWriteMasked]
  exact if_congr (storesTo_iff _ _ a) rfl rfl

/-- Settles O17: what a state selects is well formed, and the reserved word is not. -/
theorem reservedStateHasNoStep : Obligations.ReservedStateHasNoStep := by
  intro cyc stb we s
  refine ⟨rfl, fun hsel => ?_⟩
  have hwf := stepInstr_wellFormed s
  rw [hsel] at hwf
  cases hwf

/-- Settles O18: a row is what the boundary selects, and `RSP.STEP` in that state. -/
theorem transitionTableOfTheResponder : Obligations.TransitionTableOfTheResponder := by
  intro s
  rw [exec_stepInstr]
  refine ⟨fun hst hnop => ?_, fun hst hreq hwe => ?_, fun hst hreq hwe => ?_, fun hst hadr => ?_, fun hst hadr => ?_⟩
  · exact ⟨mnemonic_stepInstr_of_nop hst hnop, _, rspStep_of_nop hst hnop, hst, rfl⟩
  · rw [stepInstr_of_request hst hreq, rspStep_of_request hst hreq, hwe]
    exact ⟨rfl, _, rfl, rfl, rfl⟩
  · rw [stepInstr_of_request hst hreq, rspStep_of_request hst hreq, hwe]
    exact ⟨rfl, _, rfl, rfl, rfl⟩
  · rw [stepInstr_of_readPending hst, rspStep_of_readPending hst, retireRead_of_readable (refusesAddr_false hadr)]
    exact ⟨rfl, _, rfl, rfl, rfl⟩
  · rw [stepInstr_of_writePending hst, rspStep_of_writePending hst, retireWrite_of_readable (refusesAddr_false hadr)]
    exact ⟨rfl, _, rfl, rfl, rfl⟩

/-- Settles O55: the first row of the transition table, with its whole frame. -/
theorem idleHoldOfANop : Obligations.IdleHoldOfANop := by
  intro s hst hnop
  rw [exec_stepInstr]
  exact ⟨mnemonic_stepInstr_of_nop hst hnop, _, rspStep_of_nop hst hnop, rfl, rfl, rfl, rfl, rfl, rfl⟩

/-- Settles O56: the write is accepted, and its retire does not sample the lines. -/
theorem acceptWriteOfARequest : Obligations.AcceptWriteOfARequest := by
  intro s hst hreq hwe
  rw [exec_stepInstr, stepInstr_of_request hst hreq, rspStep_of_request hst hreq, hwe]
  refine ⟨rfl, _, rfl, rfl, rfl, rfl, rfl, rfl, rfl, fun o u v hu hv => ?_⟩
  rw [exec_stepInstr] at hu hv
  exact rspStep_present_of_pending (by simp [acceptWrite]) hu hv

/-! ### The writers of each register -/

/-- What each register of the responder is in `t`, after the micro-operation `m` was executed in `s`. -/
structure RegisterWrites (m : Instr) (s t : State) : Prop where
  capAdr : t.rsp.capAdr =
    if m.mnemonic == "ACCEPT_READ" || m.mnemonic == "ACCEPT_WRITE" then t.env.sampled.adr else s.rsp.capAdr
  capDat : t.rsp.capDat = if m.mnemonic == "ACCEPT_WRITE" then t.env.sampled.wdata else s.rsp.capDat
  capSel : t.rsp.capSel = if m.mnemonic == "ACCEPT_WRITE" then t.env.sampled.sel else s.rsp.capSel
  rdata : t.rsp.rdata = if m.mnemonic == "RETIRE_READ" then memRead s s.rsp.capAdr else s.rsp.rdata
  ack : t.rsp.ack = (m.mnemonic == "RETIRE_READ" || m.mnemonic == "RETIRE_WRITE")
  st : t.rsp.st =
    if m.mnemonic == "ACCEPT_READ" then .readPending else if m.mnemonic == "ACCEPT_WRITE" then .writePending
    else if m.mnemonic == "RETIRE_READ" || m.mnemonic == "RETIRE_WRITE" then .idle else s.rsp.st

theorem exec_step_registerWrites {m : Instr} (hm : m.format = .step) {s t : State} (h : exec m s = .next t) :
    RegisterWrites m s t := by
  cases m with
  | idleHoldNoCyc stb we => cases h; exact ⟨rfl, rfl, rfl, rfl, rfl, rfl⟩
  | idleHoldNoStb we => cases h; exact ⟨rfl, rfl, rfl, rfl, rfl, rfl⟩
  | acceptRead => cases h; exact ⟨rfl, rfl, rfl, rfl, rfl, rfl⟩
  | acceptWrite => cases h; exact ⟨rfl, rfl, rfl, rfl, rfl, rfl⟩
  | retireRead cyc stb we =>
    obtain ⟨-, ht⟩ := accessing_eq_next h
    cases ht
    exact ⟨rfl, rfl, rfl, rfl, rfl, rfl⟩
  | retireWrite cyc stb we =>
    obtain ⟨-, ht⟩ := accessing_eq_next h
    cases ht
    exact ⟨rfl, rfl, rfl, rfl, rfl, rfl⟩
  | reservedSt3 cyc stb we => cases h
  | _ => cases hm

/-- A bus command writes what the micro-operation it amounts to writes: presenting the lines changes
neither memory nor the responder. -/
theorem exec_req_registerWrites {i : Instr} (hi : i.format = .req) {s t : State} (h : exec i s = .next t) :
    RegisterWrites (microOp i s) s t := by
  obtain ⟨o, ho, hm⟩ := exec_req hi s
  rw [ho, ← exec_stepInstr] at h
  obtain ⟨hadr, hdat, hsel, hrdata, hack, hst⟩ := exec_step_registerWrites (encodeBits_decodeStep _).1 h
  rw [memRead_present] at hrdata
  rw [hm]
  exact ⟨hadr, hdat, hsel, hrdata, hack, hst⟩

theorem microOp_of_step {i : Instr} (hi : i.format = .step) (s : State) : microOp i s = i := by
  cases i with
  | nopNoCyc stb we sel adr wdata => cases hi
  | nopNoStb we sel adr wdata => cases hi
  | read sel adr wdata => cases hi
  | write sel adr wdata => cases hi
  | _ => rfl

theorem exec_registerWrites {i : Instr} (hi : i.format ≠ .phase) {s t : State} (h : exec i s = .next t) :
    RegisterWrites (microOp i s) s t := by
  cases hf : i.format with
  | req => exact exec_req_registerWrites hf h
  | step =>
    rw [microOp_of_step hf]
    exact exec_step_registerWrites hf h
  | phase => exact absurd hf hi

theorem phase_is_no_microOp {i : Instr} (hi : i.format = .phase) (s : State) :
    acceptsRead i s = false ∧ acceptsWrite i s = false ∧ retiresRead i s = false ∧ retiresWrite i s = false := by
  cases i with
  | ph0 => exact ⟨rfl, rfl, rfl, rfl⟩
  | ph1 => exact ⟨rfl, rfl, rfl, rfl⟩
  | ph2 => exact ⟨rfl, rfl, rfl, rfl⟩
  | ph3 => exact ⟨rfl, rfl, rfl, rfl⟩
  | _ => cases hi

/-- Settles O20: a bus command or micro-operation writes by its micro-operation, a phase writes the clock
bits alone. -/
theorem responderRegisterWriters : Obligations.ResponderRegisterWriters := by
  intro i s t h
  by_cases hi : i.format = .phase
  · obtain ⟨k, hk⟩ := exec_phase hi s
    cases hk.symm.trans h
    obtain ⟨hnoAcceptRead, hnoAcceptWrite, hnoRetireRead, hnoRetireWrite⟩ := phase_is_no_microOp hi s
    simp [hi, hnoAcceptRead, hnoAcceptWrite, hnoRetireRead, hnoRetireWrite]
  · obtain ⟨hadr, hdat, hsel, hrdata, hack, hst⟩ := exec_registerWrites hi h
    exact ⟨hadr, hdat, hsel, hrdata, hack.trans (if_neg hi).symm, hst⟩

/-! ### Bus commands -/

/-- Settles O21: neither row's lines are a request. -/
theorem nopInIdleHolds : Obligations.NopInIdleHolds := fun stb we sel adr wdata s hst =>
  ⟨rspStep_of_nop (s := presentReq false stb we sel adr wdata s) hst rfl,
    rspStep_of_nop (s := presentReq true false we sel adr wdata s) hst rfl⟩

section BusCommand
variable {i : Instr} (hi : i.format = .req) {s : State}
include hi

theorem exec_req_mm {t : State} (h : exec i s = .next t) :
    t.mm = if s.rsp.st = .writePending then storedMap s else s.mm := by
  rw [exec_mm h]
  exact if_congr (retiresWrite_of_req hi s) rfl rfl

/-- A bus command answers unless a captured address is refused. -/
theorem exec_req_total (hadr : refusesAddr s s.rsp.capAdr = false) : ∃ t, exec i s = .next t := by
  obtain ⟨o, ho, -⟩ := exec_req hi s
  rw [ho]
  exact rspStep_total (s := present o s) hadr

theorem exec_req_of_idle (hst : s.rsp.st = .idle) : ∃ t, exec i s = .next t ∧ t.rsp.ack = false ∧ t.mm = s.mm := by
  obtain ⟨o, ho, -⟩ := exec_req hi s
  rw [ho]
  exact rspStep_of_idle (s := present o s) hst

theorem exec_req_of_pending {t : State} (hst : s.rsp.st ≠ .idle) (h : exec i s = .next t) :
    t.rsp = retiredResponder s := by
  obtain ⟨o, ho, -⟩ := exec_req hi s
  exact rspStep_rsp_of_pending (s := present o s) hst (ho ▸ h)

end BusCommand

/-- Settles O22: accept, retire, and a third boundary from `Idle`; no write is pending at any of them. -/
theorem readTransaction : Obligations.ReadTransaction := by
  intro sel adr wdata s hst hadr
  refine ⟨_, exec_read_of_idle hst sel adr wdata, rfl, rfl, fun j hj => ?_⟩
  obtain ⟨u, hu⟩ := exec_req_total hj (s := acceptRead (presentReq true true false sel adr wdata s))
    (refusesAddr_false hadr)
  have hrsp := exec_req_of_readPending hj hu rfl
  have hmm : u.mm = s.mm := exec_req_mm hj hu
  refine ⟨u, hu, hrsp, hmm, fun k hk => ?_⟩
  obtain ⟨v, hv, hack, hvmm⟩ := exec_req_of_idle hk (s := u) (by rw [hrsp])
  exact ⟨v, hv, hack, hvmm.trans hmm⟩

/-- Settles O23: accept, retire, and a third boundary from `Idle`; the retire's map is that of the captured
masked write. -/
theorem writeTransaction : Obligations.WriteTransaction := by
  intro sel adr wdata s hst hadr
  refine ⟨_, exec_write_of_idle hst sel adr wdata, rfl, rfl, fun j hj => ?_⟩
  obtain ⟨u, hu⟩ := exec_req_total hj (s := acceptWrite (presentReq true true true sel adr wdata s))
    (refusesAddr_false hadr)
  obtain ⟨hrsp, hmm⟩ := exec_req_of_writePending hj hu rfl
  refine ⟨u, hu, hrsp, fun a => ?_, fun k hk => exec_req_of_idle hk (by rw [hrsp])⟩
  rw [memRead_of_mm hmm]
  exact memRead_memWriteMasked a adr sel wdata _

/-- Settles O25: what a pending transaction's retire leaves does not depend on the command, and it leaves
`Idle`, from which the command is accepted. -/
theorem pendingDefersRequests : Obligations.PendingDefersRequests := by
  intro i s t hi hst h
  have hrsp := exec_req_of_pending hi hst h
  have hidle : t.rsp.st = .idle := by rw [hrsp]; rfl
  refine ⟨hidle, by rw [hrsp]; rfl, by rw [hrsp]; rfl, by rw [hrsp]; rfl, by rw [hrsp]; rfl, ?_, ?_, ?_⟩
  · intro j t' hj h'
    exact ⟨by rw [exec_req_of_pending hj hst h', hrsp], by rw [exec_req_mm hj h', exec_req_mm hi h]⟩
  · rintro sel adr wdata rfl
    exact ⟨_, exec_read_of_idle hidle sel adr wdata, rfl, rfl⟩
  · rintro sel adr wdata rfl
    exact ⟨_, exec_write_of_idle hidle sel adr wdata, rfl, rfl, rfl, rfl⟩

/-! ### A step by its case -/

theorem step_of_going {s : State} (ht : terminated s = false) : step s = drvTick s := by simp [step, ht]

theorem step_between {s : State} (ht : terminated s = false) (hb : nextIsBoundary s = false) :
    step s = .next (testTermination (traceTick (evaluateDevice (clkAdvance s)))) := by
  rw [step_of_going ht, drvTick_between hb]

theorem step_boundary {s u : State} (ht : terminated s = false) (hb : nextIsBoundary s = true)
    (hu : rspStep (evaluateDevice (clkAdvance s)) = .next u) :
    step s = .next (testTermination (traceTick (afterResponder u))) := by
  rw [step_of_going ht, drvTick_boundary hb, hu, andThen_of_next]

/-! ### The reset line -/

/-- The reset line at another value. -/
def withResetLine (b : Bool) (s : State) : State := { s with run := { s.run with resetLine := b } }

section ResetLine
variable (b : Bool)

theorem evaluateDevice_withResetLine {s : State} {o : Lines} {rest : List Lines} (h : s.env.script = o :: rest) :
    evaluateDevice (withResetLine b s) = withResetLine b (evaluateDevice s) := by
  have h' : (withResetLine b s).env.script = o :: rest := h
  unfold evaluateDevice
  rw [h, h']
  rfl

theorem memWriteMasked_withResetLine (a : Word) (be : LaneSel) (w : Word) (s : State) :
    memWriteMasked a be w (withResetLine b s) = withResetLine b (memWriteMasked a be w s) := by
  unfold memWriteMasked
  split <;> rfl

/-- `RSP.STEP` neither reads nor writes the reset line (42_bus_responder.md R130). -/
theorem rspStep_withResetLine {s t : State} (h : rspStep s = .next t) :
    rspStep (withResetLine b s) = .next (withResetLine b t) := by
  obtain ⟨hst, hnop, rfl⟩ | ⟨hst, hreq, hwe, rfl⟩ | ⟨hst, hreq, hwe, rfl⟩ | ⟨hst, hadr, rfl⟩ | ⟨hst, hadr, rfl⟩ :=
    rspStep_eq_next h
  · exact rspStep_of_nop (s := withResetLine b s) hst hnop
  · rw [rspStep_of_request (s := withResetLine b s) hst hreq]
    exact congrArg Host.Outcome.next (if_neg (Bool.eq_false_iff.1 hwe))
  · rw [rspStep_of_request (s := withResetLine b s) hst hreq]
    exact congrArg Host.Outcome.next (if_pos hwe)
  · rw [rspStep_of_readPending (s := withResetLine b s) hst]
    exact retireRead_of_readable (s := withResetLine b s) hadr
  · rw [rspStep_of_writePending (s := withResetLine b s) hst, retireWrite_of_readable (s := withResetLine b s) hadr]
    exact congrArg (fun m => Host.Outcome.next (setResponder { s.rsp with ack := true, st := .idle } m))
      (memWriteMasked_withResetLine b s.rsp.capAdr s.rsp.capSel s.rsp.capDat s)

end ResetLine

/-- Settles O43: the device's queued lines do not depend on the line, the responder does not read it, and
the reset rule writes nothing else. -/
theorem resetLineGatesNothing : Obligations.ResetLineGatesNothing := by
  intro s t b o rest hscript h
  have hdevice : evaluateDevice (clkAdvance (withResetLine b s)) = withResetLine b (evaluateDevice (clkAdvance s)) :=
    evaluateDevice_withResetLine b (s := clkAdvance s) (by rw [clkAdvance_env, hscript])
  obtain ⟨ht, rfl⟩ | ⟨ht, hb, rfl⟩ | ⟨ht, hb, u, hu, rfl⟩ := step_eq_next h
  · refine ⟨afterRun (withResetLine b s), if_pos ht, ?_⟩
    unfold afterRun
    cases hf : s.diag.finalized <;> simp [withResetLine, hf]
  · have hstep := step_between (s := withResetLine b s) ht hb
    rw [hdevice] at hstep
    exact ⟨_, hstep, rfl, rfl, rfl, rfl, rfl, rfl, rfl, rfl, rfl⟩
  · have hstep := step_boundary (s := withResetLine b s) ht hb (hdevice ▸ rspStep_withResetLine b hu)
    exact ⟨_, hstep, rfl, rfl, rfl, rfl, rfl, rfl, rfl, rfl, rfl⟩

/-! ### Bus cycles without completion -/

/-- What the device's queued lines are when the next tick samples them. -/
theorem sampled_of_script {s : State} {o : Lines} {rest : List Lines} (h : s.env.script = o :: rest) :
    (evaluateDevice (clkAdvance s)).env = { s.env with sampled := o, script := rest } := by
  rw [evaluateDevice_scripted (s := clkAdvance s) (by rw [clkAdvance_env, h]), clkAdvance_env]

/-- The `done` line is recorded on every tick (43_simulation_driver.md R144, R150). -/
theorem step_termDone {s t : State} (ht : terminated s = false) (h : step s = .next t) :
    t.run.termDone = t.env.sampled.done := by
  have hflag : s.run.termDone = false := by
    rw [terminated, Bool.or_eq_false_iff] at ht
    exact ht.1
  obtain ⟨hend, -⟩ | ⟨-, -, rfl⟩ | ⟨-, -, u, hu, rfl⟩ := step_eq_next h
  · simp [ht] at hend
  · simp [doneAfter, hflag]
  · simp [doneAfter, hflag, (rspStep_microFrame hu).run]

/-- A tick ends no run when its lines request no completion and its count is within the run length. -/
theorem step_keeps_going {s t : State} {o : Lines} {rest : List Lines} (ht : terminated s = false)
    (h : step s = .next t) (hscript : s.env.script = o :: rest) (hdone : o.done = false)
    (hlen : t.run.cycle ≤ s.cfg.runCycles) : terminated t = false := by
  rw [terminated, step_termDone ht h, step_termOverrun ht h, step_env ht h, sampled_of_script hscript]
  simpa [hdone] using hlen

/-- The next tick is a boundary tick, and `n` bus cycles from it on neither request completion nor exceed
the run length. -/
structure QuietBoundary (n : Nat) (s : State) : Prop where
  going : terminated s = false
  boundary : nextIsBoundary s = true
  lines : ∀ k < 4 * n, ∃ o, s.env.script[k]? = some o ∧ o.done = false
  length : s.run.cycle + n ≤ s.cfg.runCycles

/-- `RSP.STEP` at the boundary after `s` leaves the responder `r` and the memory `m`. -/
def BoundaryLeaves (s : State) (r : Responder) (m : MemoryModel) : Prop :=
  ∃ u, rspStep (evaluateDevice (clkAdvance s)) = .next u ∧ u.rsp = r ∧ u.mm = m

/-- `t` is the state `k` ticks into the bus cycle that begins at the boundary after `s`, with the responder
`r` and the memory `m` that the boundary left. -/
structure IntoBusCycle (s : State) (r : Responder) (m : MemoryModel) (k : Nat) (t : State) : Prop where
  going : terminated t = false
  rsp : t.rsp = r
  mm : t.mm = m
  cfg : t.cfg = s.cfg
  tick : t.clk.tick = s.clk.tick + k
  cycle : t.run.cycle = s.run.cycle + 1
  script : t.env.script = s.env.script.drop k

section BusCycle
variable {n : Nat} {s : State} {r : Responder} {m : MemoryModel}

theorem QuietBoundary.drop_eq_cons (hs : QuietBoundary (n + 1) s) {k : Nat} (hk : k < 4) :
    ∃ o, s.env.script.drop k = o :: s.env.script.drop (k + 1) ∧ o.done = false := by
  obtain ⟨o, ho, hdone⟩ := hs.lines k (by omega)
  obtain ⟨hlt, rfl⟩ := List.getElem?_eq_some_iff.1 ho
  exact ⟨_, List.drop_eq_getElem_cons hlt, hdone⟩

theorem step_intoBusCycle (hs : QuietBoundary (n + 1) s) (hu : BoundaryLeaves s r m) :
    ∃ t, step s = .next t ∧ IntoBusCycle s r m 1 t := by
  obtain ⟨u, hu, hrsp, hmm⟩ := hu
  obtain ⟨o, hscript, hdone⟩ := hs.drop_eq_cons (k := 0) (by omega)
  have hlen := hs.length
  have h := step_boundary hs.going hs.boundary hu
  have hcycle := step_cycle hs.going h
  rw [if_pos hs.boundary] at hcycle
  refine ⟨_, h,
    { going := step_keeps_going hs.going h hscript hdone (by omega)
      rsp := hrsp
      mm := hmm
      cfg := (step_sameSettings h).cfg
      tick := by rw [step_clk hs.going h, clkAdvance_clk]
      cycle := hcycle
      script := by rw [step_env hs.going h, sampled_of_script hscript] }⟩

/-- Between boundaries nothing moves but the counts. -/
theorem IntoBusCycle.step_next (hs : QuietBoundary (n + 1) s) {k : Nat} (hpos : 1 ≤ k) (hk : k < 4) {t : State}
    (ht : IntoBusCycle s r m k t) : ∃ t', step t = .next t' ∧ IntoBusCycle s r m (k + 1) t' := by
  obtain ⟨o, hdrop, hdone⟩ := hs.drop_eq_cons hk
  have hscript : t.env.script = o :: s.env.script.drop (k + 1) := ht.script.trans hdrop
  have hlen := hs.length
  have hb : nextIsBoundary t = false := by
    have hat := hs.boundary
    rw [nextIsBoundary, beq_iff_eq] at hat
    rw [nextIsBoundary, beq_eq_false_iff_ne, ht.tick, ht.cfg]
    omega
  have h := step_between ht.going hb
  have hcycle := step_cycle ht.going h
  rw [hb, if_neg Bool.false_ne_true, ht.cycle] at hcycle
  refine ⟨_, h,
    { going := step_keeps_going ht.going h hscript hdone (by rw [hcycle, ht.cfg]; omega)
      rsp := by simp [ht.rsp]
      mm := by simp [ht.mm]
      cfg := by simp [ht.cfg]
      tick := by rw [step_clk ht.going h, clkAdvance_clk, ht.tick]; rfl
      cycle := hcycle
      script := by rw [step_env ht.going h, sampled_of_script hscript] }⟩

/-- Each tick of the bus cycle leaves the responder and memory as `RSP.STEP` did at its boundary. -/
theorem stepN_intoBusCycle (hs : QuietBoundary (n + 1) s) (hu : BoundaryLeaves s r m)
    {k : Nat} (hpos : 1 ≤ k) (hk : k ≤ 4) : ∃ t, stepN k s = .next t ∧ IntoBusCycle s r m k t := by
  induction k, hpos using Nat.le_induction with
  | base =>
    obtain ⟨t, h, ht⟩ := step_intoBusCycle hs hu
    exact ⟨t, by rw [stepN_succ]; exact h, ht⟩
  | succ k hpos ih =>
    obtain ⟨t, h, ht⟩ := ih (by omega)
    obtain ⟨t', h', ht'⟩ := ht.step_next hs hpos (by omega)
    exact ⟨t', by rw [stepN_succ, h, andThen_of_next, h'], ht'⟩

/-- The end of a bus cycle is the beginning of the next one. -/
theorem IntoBusCycle.quietBoundary (hs : QuietBoundary (n + 1) s) {t : State} (ht : IntoBusCycle s r m 4 t) :
    QuietBoundary n t where
  going := ht.going
  boundary := by
    have hat := hs.boundary
    rw [nextIsBoundary, beq_iff_eq] at hat ⊢
    rw [ht.tick, ht.cfg]
    omega
  lines := fun k hk => by
    rw [ht.script, List.getElem?_drop]
    exact hs.lines (4 + k) (by omega)
  length := by
    have hlen := hs.length
    rw [ht.cycle, ht.cfg]
    omega

end BusCycle

theorem stepN_add (m k : Nat) (s : State) : stepN (m + k) s = andThen (stepN m s) (stepN k) := by
  induction k with
  | zero => cases stepN m s <;> rfl
  | succ k ih =>
    rw [← Nat.add_assoc, stepN_succ, ih]
    cases stepN m s with
    | next t => exact (stepN_succ k t).symm
    | fault f => rfl
    | refused r => rfl

theorem stepN_add_of_next {m k : Nat} {s t u : State} (ht : stepN m s = .next t) (hu : stepN k t = .next u) :
    stepN (m + k) s = .next u := by
  rw [stepN_add, ht, andThen_of_next, hu]

/-! ### An isolated read -/

section QueuedLines
variable {s : State} {o : Lines} {rest : List Lines} (hscript : s.env.script = o :: rest)
include hscript

/-- In `Idle`, queued lines that request a read are accepted. -/
theorem boundaryLeaves_of_queuedRead (hst : s.rsp.st = .idle) (hreq : isRequest o = true) (hwe : o.we = false) :
    BoundaryLeaves s { s.rsp with capAdr := o.adr, st := .readPending, ack := false } s.mm := by
  have henv := sampled_of_script hscript
  refine ⟨acceptRead (evaluateDevice (clkAdvance s)), ?_, by simp [acceptRead, henv], by simp [acceptRead]⟩
  rw [rspStep_of_request (by simpa using hst) (by simpa [henv] using hreq), henv]
  simp [hwe]

/-- In `Idle`, queued lines that request nothing clear acknowledge. -/
theorem boundaryLeaves_of_queuedNop (hst : s.rsp.st = .idle) (hnop : isRequest o = false) :
    BoundaryLeaves s { s.rsp with ack := false } s.mm := by
  have hnop' : isRequest (evaluateDevice (clkAdvance s)).env.sampled = false := by
    rwa [sampled_of_script hscript]
  exact ⟨_, rspStep_of_nop (by simpa using hst) hnop', by simp [idleHold], by simp [idleHold]⟩

end QueuedLines

/-- In `ReadPending` the read retires whatever the device's lines are. -/
theorem boundaryLeaves_of_readPending {s : State} (hst : s.rsp.st = .readPending) (hmask : s.cfg.addrMode = .mask) :
    BoundaryLeaves s { s.rsp with rdata := memRead s s.rsp.capAdr, ack := true, st := .idle } s.mm := by
  have hadr : refusesAddr (evaluateDevice (clkAdvance s)) (evaluateDevice (clkAdvance s)).rsp.capAdr = false :=
    refusesAddr_false (.inl (by simpa using hmask))
  have hretire := retireRead_of_readable hadr
  rw [← rspStep_of_readPending (by simpa using hst)] at hretire
  exact ⟨_, hretire, by simp, by simp⟩

/-- Settles O49: three bus cycles, that of the accept, that of the retire, which drives the word with
acknowledge, and that of the `NOP`, which clears acknowledge and keeps read data. -/
theorem isolatedReadAcknowledgedOnce : Obligations.IsolatedReadAcknowledgedOnce := by
  intro s r a1 a2 a3 b b1 b2 b3 c c1 c2 c3 rest hgoing hmask hst hb hscript hdone hreq hwe hnop hlen k hpos hk
  have hs : QuietBoundary 3 s :=
    { going := hgoing, boundary := hb, length := hlen
      lines := fun k hk => by
        rw [hscript, List.getElem?_append_left hk]
        exact ⟨_, List.getElem?_eq_getElem hk, hdone _ (List.getElem_mem hk)⟩ }
  have haccept := boundaryLeaves_of_queuedRead hscript hst hreq hwe
  obtain ⟨t, hst4, ht⟩ := stepN_intoBusCycle hs haccept (k := 4) (by decide) (by decide)
  have hts := ht.quietBoundary hs
  have hretire := boundaryLeaves_of_readPending (s := t) (by rw [ht.rsp]) (by rw [ht.cfg, hmask])
  rw [memRead_of_mm ht.mm, ht.rsp, ht.mm] at hretire
  obtain ⟨w, htw4, hw⟩ := stepN_intoBusCycle hts hretire (k := 4) (by decide) (by decide)
  have hws := hw.quietBoundary hts
  have hwscript : w.env.script = c :: ([c1, c2, c3] ++ rest) := by
    rw [hw.script, ht.script, hscript]
    rfl
  have hclear := boundaryLeaves_of_queuedNop hwscript (by rw [hw.rsp]) hnop
  rw [hw.rsp, hw.mm] at hclear
  have hsw8 : stepN 8 s = .next w := stepN_add_of_next hst4 htw4
  by_cases h4 : k ≤ 4
  · obtain ⟨x, hx, hxc⟩ := stepN_intoBusCycle hs haccept hpos h4
    refine ⟨x, hx, ?_, fun h5 => absurd h5 (by omega), hxc.mm⟩
    rw [hxc.rsp, eq_comm, decide_eq_false_iff_not]
    omega
  by_cases h8 : k ≤ 8
  · obtain ⟨j, rfl⟩ := Nat.exists_eq_add_of_le (Nat.le_of_not_le h4)
    obtain ⟨x, hx, hxc⟩ := stepN_intoBusCycle hts hretire (k := j) (by omega) (by omega)
    refine ⟨x, stepN_add_of_next hst4 hx, ?_, fun _ => by rw [hxc.rsp], hxc.mm⟩
    rw [hxc.rsp, eq_comm, decide_eq_true_eq]
    omega
  · obtain ⟨j, rfl⟩ := Nat.exists_eq_add_of_le (Nat.le_of_not_le h8)
    obtain ⟨x, hx, hxc⟩ := stepN_intoBusCycle hws hclear (k := j) (by omega) (by omega)
    refine ⟨x, stepN_add_of_next hsw8 hx, ?_, fun _ => by rw [hxc.rsp], hxc.mm⟩
    rw [hxc.rsp, eq_comm, decide_eq_false_iff_not]
    omega

end Sys2Proof.Machine

/-! SUPPORT. Proofs of the statements of `43_simulation_driver.md`: the decoded operations of a tick, a tick
that is no boundary, the counter and the reset line, the termination flags, and the end of a run. -/

namespace Sys2Proof.Machine

/-! ### The decoded operations of a tick -/

theorem decode_phaseInstr (s : State) :
    decode .phase (natToBytes 1 ((s.clk.tick + 1) % 4)) = .ok (phaseInstr (countTick s)) :=
  decode_phase_ok ⟨(s.clk.tick + 1) % 4, Nat.mod_lt _ (by decide)⟩

/-- Settles O31: the three strings decode to the operations that the tick selects by name. -/
theorem stepRunsTheDecodedOperations : Obligations.StepRunsTheDecodedOperations := by
  intro s s1 ip im ic ht hip hs1 him hic
  cases (decode_phaseInstr s).symm.trans hip
  cases (clockStep_eq s).symm.trans hs1
  cases (decode_step_ok (stepWord _)).symm.trans him
  cases (decode_req_ok (lineWord _)).symm.trans hic
  refine ⟨step_between ht, fun hb => ?_, commandIsItsMicroOperation _⟩
  rw [step_of_going ht, drvTick_boundary hb, ← exec_stepInstr]
  rfl

/-! ### A tick that is no boundary -/

/-- Between boundaries the responder and memory stand (42_bus_responder.md R115). -/
theorem step_between_frame {s t : State} (ht : terminated s = false) (hb : nextIsBoundary s = false)
    (h : step s = .next t) : t.mm = s.mm ∧ t.rsp = s.rsp := by
  cases (step_between ht hb).symm.trans h
  constructor <;> simp

/-- Settles O33: a tick that is no boundary has no step 3. -/
theorem betweenBoundariesNothingMoves : Obligations.BetweenBoundariesNothingMoves := by
  intro s t ht hb h
  obtain ⟨hmm, hrsp⟩ := step_between_frame ht hb h
  obtain ⟨hsink, hfin⟩ := step_closing ht h
  refine ⟨hmm, hrsp, (step_sameSettings h).cfg, ?_, ?_, ?_, hsink, hfin⟩
  · rw [step_clk ht h, clkAdvance_clk]
  · simp [step_cycle ht h, hb]
  · simp [step_resetLine ht h, hb]

/-! ### The counter and the reset line -/

/-- No operation writes the run state. -/
theorem exec_run {i : Instr} {s t : State} (h : exec i s = .next t) : t.run = s.run := by
  cases hi : i.format with
  | req =>
    obtain ⟨o, hf⟩ := exec_req_microFrame hi h
    exact hf.run
  | step => exact (exec_step_microFrame hi h).run
  | phase =>
    obtain ⟨k, hk⟩ := exec_phase hi s
    cases hk.symm.trans h
    rfl

theorem step_run_of_terminated {s t : State} (ht : terminated s = true) (h : step s = .next t) : t.run = s.run := by
  rw [step_of_terminated ht h, afterRun_run]

/-- Settles O36: a tick counts at its boundary; no operation and no step after the end counts. -/
theorem counterAdvancesAtBoundariesOnly : Obligations.CounterAdvancesAtBoundariesOnly := by
  refine ⟨fun i s t h => by rw [exec_run h], fun s t h => ?_⟩
  cases ht : terminated s with
  | false => simp [step_cycle ht h]
  | true => simp [step_run_of_terminated ht h]

/-- Settles O37: a tick applies the reset rule at its boundary, on the counter before its advance. -/
theorem resetLineFallsOnce : Obligations.ResetLineFallsOnce := by
  refine ⟨fun i s t h => by rw [exec_run h], fun s t h => ?_⟩
  cases ht : terminated s with
  | true => simp [step_run_of_terminated ht h]
  | false =>
    rw [step_resetLine ht h]
    cases nextIsBoundary s <;> simp [resetAfter]

/-! ### The termination flags -/

/-- Settles O38: `evaluate` runs on every tick, and the termination test records its `done` line. -/
theorem doneIsReadEveryTick : Obligations.DoneIsReadEveryTick := by
  intro s t ht h
  refine ⟨step_termDone ht h, fun o rest hscript => ?_⟩
  rw [step_env ht h, sampled_of_script hscript]
  exact ⟨rfl, rfl⟩

/-- Settles O39: a flag that is 1 has ended the run, and a step after the end keeps the flags. -/
theorem overrunIsTestedEveryTick : Obligations.OverrunIsTestedEveryTick := by
  intro s t h
  refine ⟨fun ht => step_termOverrun ht h, fun hover => ?_, fun hdone => ?_⟩
  · rw [step_run_of_terminated (by simp [terminated, hover]) h, hover]
  · rw [step_run_of_terminated (by simp [terminated, hdone]) h, hdone]

/-! ### After the end -/

@[simp] theorem afterRun_env (s : State) : (afterRun s).env = s.env := by unfold afterRun; split <;> rfl

/-- The run is closed by the first step after the end, and that closing is no event. -/
theorem afterRun_diag (s : State) :
    (afterRun s).diag =
      { s.diag with sinkOpen := s.diag.finalized && s.diag.sinkOpen, finalized := true } := by
  unfold afterRun
  split
  · next hfin => rw [hfin, Bool.true_and, ← hfin]
  · next hopen => simp [hopen]

theorem afterRun_of_finalized {s : State} (h : s.diag.finalized = true) : afterRun s = s := if_pos h

theorem step_after_end {s : State} (ht : terminated s = true) : step s = .next (afterRun s) := if_pos ht

/-- Settles O40: the step closes the run, and a closed run stays as it is. -/
theorem nothingRunsAfterTheEnd : Obligations.NothingRunsAfterTheEnd := by
  intro s ht
  have hdiag := afterRun_diag s
  have hclosed : (afterRun s).diag.finalized = true := by rw [hdiag]
  refine ⟨afterRun s, step_after_end ht, afterRun_mm s, afterRun_rsp s, afterRun_clk s, afterRun_run s,
    afterRun_cfg s, afterRun_env s, by rw [hdiag], fun hopen => by simp [hdiag, hopen], hclosed, ?_⟩
  rw [step_after_end (by rw [terminated_afterRun, ht]), afterRun_of_finalized hclosed]

/-! ### When a step answers -/

/-- A pending transaction's address is not refused, so that its retire has a meaning (20_memory.md
R46). -/
def Retirable (s : State) : Prop := s.rsp.st ≠ .idle → refusesAddr s s.rsp.capAdr = false

theorem retirable_of_mask {s : State} (hmask : s.cfg.addrMode = .mask) : Retirable s := fun _ =>
  refusesAddr_false (.inl hmask)

theorem rspStep_of_retirable {s : State} (hs : Retirable s) : ∃ t, rspStep s = .next t := by
  by_cases hst : s.rsp.st = .idle
  · obtain ⟨t, h, -⟩ := rspStep_of_idle hst
    exact ⟨t, h⟩
  · exact rspStep_total (hs hst)

theorem retirable_evaluated {s : State} (hs : Retirable s) : Retirable (evaluateDevice (clkAdvance s)) := by
  simpa [Retirable, refusesAddr] using hs

theorem step_of_retirable {s : State} (hs : Retirable s) : ∃ t, step s = .next t := by
  cases ht : terminated s with
  | true => exact ⟨_, step_after_end ht⟩
  | false =>
    cases hb : nextIsBoundary s with
    | false => exact ⟨_, step_between ht hb⟩
    | true =>
      obtain ⟨u, hu⟩ := rspStep_of_retirable (retirable_evaluated hs)
      exact ⟨_, step_boundary ht hb hu⟩

/-! ### The length of a run -/

/-- How many ticks a run without completion takes (43_simulation_driver.md R151). -/
def runTicks (p : Params) : Nat := 4 * (p.runCycles + 1) - (4 - p.boundaryIndex.val) % 4

/-- Before that many ticks the boundaries are within the run length. -/
theorem boundariesBy_le_iff (p : Params) (n : Nat) :
    boundariesBy p.boundaryIndex n ≤ p.runCycles ↔ n < runTicks p := by
  have := p.boundaryIndex.isLt
  simp only [boundariesBy, runTicks]
  omega

/-- The overrun flag is 1 exactly from the last tick of the run length on. -/
theorem CounterInv.termOverrun_eq {s : State} (hi : CounterInv s) :
    s.run.termOverrun = decide (runTicks s.cfg ≤ s.clk.tick) := by
  rw [hi.overrun_eq, hi.cycle_eq, decide_eq_decide, ← not_iff_not, Nat.not_lt, Nat.not_le]
  exact boundariesBy_le_iff s.cfg s.clk.tick

/-- With addresses masked a run ends within the ticks that its run length leaves. -/
theorem ends_within {n : Nat} {s : State} (hi : CounterInv s) (hmask : s.cfg.addrMode = .mask)
    (hn : runTicks s.cfg ≤ s.clk.tick + n) : ∃ k t, k ≤ n ∧ stepN k s = .next t ∧ terminated t = true := by
  induction n generalizing s with
  | zero =>
    rw [Nat.add_zero] at hn
    exact ⟨0, s, le_rfl, rfl, by rw [terminated, hi.termOverrun_eq, decide_eq_true hn, Bool.or_true]⟩
  | succ n ih =>
    cases ht : terminated s with
    | true => exact ⟨0, s, Nat.zero_le _, rfl, ht⟩
    | false =>
      obtain ⟨u, hu⟩ := step_of_retirable (retirable_of_mask hmask)
      have hcfg : u.cfg = s.cfg := (step_sameSettings hu).cfg
      have htick : u.clk.tick = s.clk.tick + 1 := by rw [step_clk ht hu, clkAdvance_clk]
      obtain ⟨k, t, hk, hrun, hend⟩ :=
        ih (step_keeps_counterInv hu hi) (by rw [hcfg, hmask]) (by rw [hcfg, htick]; omega)
      exact ⟨k + 1, t, by omega, by rw [stepN, hu, andThen_of_next, hrun], hend⟩

/-- Settles O52: the ticks left are at most those of a whole run. -/
theorem everyRunEnds : Obligations.EveryRunEnds := by
  intro s hi hmask
  have hticks : runTicks s.cfg ≤ 4 * (s.cfg.runCycles + 1) := Nat.sub_le _ _
  exact ends_within hi.counters hmask (by omega)

/-! ### A run without completion -/

/-- The image load writes memory and events only (70_reset_and_hazards.md R187). -/
theorem boot_frame {p : Params} {d : Draws} {s : State} (h : boot p d = .next s) :
    s.rsp = (State.construct p d).rsp ∧ s.clk = (State.construct p d).clk ∧
    s.run = (State.construct p d).run ∧ s.cfg = p := by
  unfold boot memLoadImage at h
  split at h
  · cases h
    exact ⟨rfl, rfl, rfl, rfl⟩
  · obtain ⟨-, hload⟩ := accessing_eq_next h
    cases hload
    exact ⟨loadTokens_rsp _ _ _ _, loadTokens_clk _ _ _ _, loadTokens_run _ _ _ _, loadTokens_cfg _ _ _ _⟩

/-- The counters' invariant is about the clock, the run state and the configuration. -/
theorem CounterInv.congr {s t : State} (hi : CounterInv s) (hclk : t.clk = s.clk) (hrun : t.run = s.run)
    (hcfg : t.cfg = s.cfg) : CounterInv t := by
  obtain ⟨hcycle, hreset, hoverrun, hle, hat⟩ := hi
  constructor <;> simpa only [hclk, hrun, hcfg]

/-- What is pending after `RSP.STEP` was captured from its lines (42_bus_responder.md R118, R119). -/
theorem rspStep_capAdr {s t : State} (h : rspStep s = .next t) (hst : t.rsp.st ≠ .idle) :
    t.rsp.capAdr = s.env.sampled.adr := by
  obtain ⟨hidle, -, rfl⟩ | ⟨-, -, -, rfl⟩ | ⟨-, -, -, rfl⟩ | ⟨-, -, rfl⟩ | ⟨-, -, rfl⟩ := rspStep_eq_next h
  · exact absurd hidle hst
  · rfl
  · rfl
  · exact absurd rfl hst
  · exact absurd rfl hst

/-- What is pending after a tick was pending before it or was captured from the tick's lines. -/
theorem step_pending {s t : State} (ht : terminated s = false) (h : step s = .next t) (hst : t.rsp.st ≠ .idle) :
    t.rsp = s.rsp ∨ t.rsp.capAdr = t.env.sampled.adr := by
  obtain ⟨hend, -⟩ | ⟨-, hb, -⟩ | ⟨-, -, u, hu, rfl⟩ := step_eq_next h
  · simp [ht] at hend
  · exact .inl (step_between_frame ht hb h).2
  · refine .inr ?_
    have hcap := rspStep_capAdr hu (by simpa using hst)
    simpa [(rspStep_microFrame hu).env] using hcap

/-- `s` is `k` ticks into a run with parameters `p`, whose device drives the queued `lines` and has not
requested completion; what is pending has an address that can retire. -/
structure IntoRun (p : Params) (lines : List Lines) (k : Nat) (s : State) : Prop where
  cfg : s.cfg = p
  tick : s.clk.tick = k
  counters : CounterInv s
  noDone : s.run.termDone = false
  script : s.env.script = lines.drop k
  pendingAdr : p.addrMode = .mask ∨ (s.rsp.st ≠ .idle → aligned s.rsp.capAdr = true)

section Run
variable {p : Params} {lines : List Lines}

theorem boot_intoRun {d : Draws} {s : State} (h : boot p d = .next s) :
    IntoRun p lines 0 { s with env := { s.env with script := lines } } := by
  obtain ⟨hrsp, hclk, hrun, hcfg⟩ := boot_frame h
  exact
    { cfg := hcfg
      tick := by rw [hclk]; rfl
      counters := (construct_inv p d).counters.congr hclk hrun hcfg
      noDone := by rw [hrun]; rfl
      script := rfl
      pendingAdr := .inr fun hst => absurd (by rw [hrsp]; rfl) hst }

theorem IntoRun.terminated_eq {k : Nat} {s : State} (hs : IntoRun p lines k s) :
    terminated s = decide (runTicks p ≤ k) := by
  rw [terminated, hs.noDone, hs.counters.termOverrun_eq, hs.cfg, hs.tick, Bool.false_or]

variable (halign : p.addrMode = .mask ∨ ∀ o ∈ lines, aligned o.adr = true) (hdone : ∀ o ∈ lines, o.done = false)
include halign hdone

/-- Before its last tick the run goes on, since nothing refuses the tick, and the tick keeps the reading. -/
theorem IntoRun.step_next {k : Nat} (hlen : k < lines.length) (hk : k < runTicks p) {s : State}
    (hs : IntoRun p lines k s) : ∃ t, step s = .next t ∧ IntoRun p lines (k + 1) t := by
  have ht : terminated s = false := by rw [hs.terminated_eq, decide_eq_false_iff_not, Nat.not_le]; exact hk
  have hretire : Retirable s := fun hst =>
    refusesAddr_false (hs.pendingAdr.imp (fun hmask => by rw [hs.cfg, hmask]) fun hadr => hadr hst)
  obtain ⟨t, h⟩ := step_of_retirable hretire
  have hscript : s.env.script = lines[k] :: lines.drop (k + 1) := by rw [hs.script, List.drop_eq_getElem_cons hlen]
  have henv := (step_env ht h).trans (sampled_of_script hscript)
  refine ⟨t, h,
    { cfg := by rw [(step_sameSettings h).cfg, hs.cfg]
      tick := by rw [step_clk ht h, clkAdvance_clk, hs.tick]
      counters := step_keeps_counterInv h hs.counters
      noDone := by rw [step_termDone ht h, henv]; exact hdone _ (List.getElem_mem hlen)
      script := by rw [henv]
      pendingAdr := ?_ }⟩
  by_cases hmask : p.addrMode = .mask
  · exact .inl hmask
  · refine .inr fun hst => ?_
    obtain hrsp | hcap := step_pending ht h hst
    · rw [hrsp] at hst ⊢
      exact hs.pendingAdr.resolve_left hmask hst
    · rw [hcap, henv]
      exact halign.resolve_left hmask _ (List.getElem_mem hlen)

theorem IntoRun.stepN_next {s : State} (hs : IntoRun p lines 0 s) {k : Nat} (hlen : k ≤ lines.length)
    (hk : k ≤ runTicks p) : ∃ t, stepN k s = .next t ∧ IntoRun p lines k t := by
  induction k with
  | zero => exact ⟨s, rfl, hs⟩
  | succ k ih =>
    obtain ⟨t, h, ht⟩ := ih (Nat.le_of_succ_le hlen) (Nat.le_of_succ_le hk)
    obtain ⟨u, h', hu⟩ := ht.step_next halign hdone hlen hk
    exact ⟨u, by rw [stepN_succ, h, andThen_of_next, h'], hu⟩

end Run

/-- Settles O51: `k` ticks into the run the counters are those of tick `k`, and the run has ended exactly
if `k` has reached its length. -/
theorem runWithoutCompletionEndsAtItsLength : Obligations.RunWithoutCompletionEndsAtItsLength := by
  intro p d s lines hboot halign hticks hdone
  have hticks : lines.length = runTicks p := hticks
  have hrun {k : Nat} (hk : k ≤ lines.length) :=
    (boot_intoRun hboot).stepN_next halign hdone hk (hticks ▸ hk)
  constructor
  · intro k hk
    obtain ⟨t, h, ht⟩ := hrun hk.le
    exact ⟨t, h, by rw [ht.terminated_eq, decide_eq_false_iff_not]; omega⟩
  · obtain ⟨t, h, ht⟩ := hrun le_rfl
    have hover : t.run.termOverrun = true := by
      rw [ht.counters.termOverrun_eq, ht.cfg, ht.tick, hticks, decide_eq_true le_rfl]
    have hcycle : p.runCycles < t.run.cycle :=
      of_decide_eq_true (by rw [← ht.cfg, ← ht.counters.overrun_eq, hover])
    have hle : t.run.cycle ≤ p.runCycles + 1 := ht.cfg ▸ ht.counters.cycle_le
    exact ⟨t, h, ht.tick, by omega, hover, ht.noDone⟩

end Sys2Proof.Machine

/-! SUPPORT. Proofs of the statements of `60_exceptions.md`: the one refusal that stops a step. -/

namespace Sys2Proof.Machine

/-- A transaction is pending whose address is refused (20_memory.md R46, decision D10). -/
theorem not_retirable_iff {s : State} :
    ¬ Retirable s ↔ s.rsp.st ≠ .idle ∧ s.cfg.addrMode = .refuse ∧ aligned s.rsp.capAdr = false := by
  rw [Retirable, Classical.not_imp, Bool.not_eq_false, refusesAddr_iff]

/-- Either retire accesses the captured address, so that `RSP.STEP` is refused with it. -/
theorem rspStep_of_not_retirable {s : State} (hs : ¬ Retirable s) : rspStep s = .refused .unalignedAddress := by
  obtain ⟨hst, hadr⟩ := not_retirable_iff.1 hs
  have hrefused : refusesAddr s s.rsp.capAdr = true := (refusesAddr_iff s _).2 hadr
  cases hpending : s.rsp.st with
  | idle => exact absurd hpending hst
  | readPending => rw [rspStep_of_readPending hpending, retireRead, accessing_of_refused _ hrefused]
  | writePending => rw [rspStep_of_writePending hpending, retireWrite, accessing_of_refused _ hrefused]

theorem not_retirable_evaluated {s : State} (hs : ¬ Retirable s) :
    ¬ Retirable (evaluateDevice (clkAdvance s)) := by
  simpa [not_retirable_iff] using hs

theorem step_of_not_retirable {s : State} (ht : terminated s = false) (hb : nextIsBoundary s = true)
    (hs : ¬ Retirable s) : step s = .refused .unalignedAddress := by
  rw [step_of_going ht, drvTick_boundary hb, rspStep_of_not_retirable (not_retirable_evaluated hs), andThen_of_refused]

/-- Settles O32: after the end and between boundaries a step always answers; on a boundary it answers
exactly if no pending transaction's address is refused. -/
theorem stepStopsOnlyOnRefusedAddresses : Obligations.StepStopsOnlyOnRefusedAddresses := by
  intro s
  constructor
  · intro hgoes
    cases ht : terminated s with
    | true => exact ⟨_, step_after_end ht⟩
    | false =>
      cases hb : nextIsBoundary s with
      | false => exact ⟨_, step_between ht hb⟩
      | true => exact step_of_retirable (not_not.1 fun hs => hgoes ⟨ht, hb, not_retirable_iff.1 hs⟩)
  · intro ht hb hst hmode hadr
    exact step_of_not_retirable ht hb (not_retirable_iff.2 ⟨hst, hmode, hadr⟩)

end Sys2Proof.Machine

/-! SUPPORT. Proofs of the statements of `70_reset_and_hazards.md`: the words an image load writes, the
values and the invariant after boot, and a request that the master holds until it is acknowledged. -/

namespace Sys2Proof.Machine

/-! ### The words of an image load -/

/-- Fewer than 2^30 word addresses apart, two image words have different keys, whether or not the base is
aligned (30_encoding.md R70). -/
theorem key_imageAddr_ne (base : Word) {i j : Nat} (hij : i < j) (hj : j < i + 2 ^ 30) :
    key (imageAddr base i) ≠ key (imageAddr base j) := by
  rw [Ne, key_eq_iff]
  simp only [imageAddr, BitVec.toNat_add, BitVec.toNat_ofNat]
  have := base.isLt
  omega

theorem loadTokens_cons_of_word {t : List Char} {w : Word} (ht : parseToken t = some w) (base : Word) (n : Nat)
    (ts : List (List Char)) (s : State) :
    loadTokens base n (t :: ts) s = loadTokens base (n + 1) ts (memWriteWord (imageAddr base n) w s) := by
  rw [loadTokens, ht]

theorem loadTokens_cons_malformed {t : List Char} (ht : parseToken t = none) (base : Word) (n : Nat)
    (ts : List (List Char)) (s : State) : loadTokens base n (t :: ts) s = s := by
  rw [loadTokens, ht]

theorem parsedWords_cons_of_word {t : List Char} {w : Word} (ht : parseToken t = some w) (ts : List (List Char)) :
    parsedWords (t :: ts) = w :: parsedWords ts := by
  rw [parsedWords, ht]

theorem parsedWords_cons_malformed {t : List Char} (ht : parseToken t = none) (ts : List (List Char)) :
    parsedWords (t :: ts) = [] := by
  rw [parsedWords, ht]

/-- A load leaves every word whose key is that of none of its words. -/
theorem memRead_loadTokens_of_key_ne {base a : Word} {ts : List (List Char)} {n : Nat} (s : State)
    (ha : ∀ i < (parsedWords ts).length, key a ≠ key (imageAddr base (n + i))) :
    memRead (loadTokens base n ts s) a = memRead s a := by
  induction ts generalizing n s with
  | nil => rfl
  | cons t ts ih =>
    cases ht : parseToken t with
    | none => rw [loadTokens_cons_malformed ht]
    | some w =>
      rw [parsedWords_cons_of_word ht, List.length_cons] at ha
      have hrest : ∀ i < (parsedWords ts).length, key a ≠ key (imageAddr base (n + 1 + i)) := fun i hi => by
        rw [Nat.add_right_comm]
        exact ha (i + 1) (by omega)
      have hfirst : key a ≠ key (imageAddr base n) := ha 0 (Nat.zero_lt_succ _)
      rw [loadTokens_cons_of_word ht, ih _ hrest, memRead_memWriteWord, if_neg hfirst]

/-- A load of at most 2^30 words is read back: no later word of it has the key of an earlier one. -/
theorem memRead_loadTokens_word {base : Word} {ts : List (List Char)} {n i : Nat} {w : Word} (s : State)
    (hlen : (parsedWords ts).length ≤ 2 ^ 30) (hw : (parsedWords ts)[i]? = some w) :
    memRead (loadTokens base n ts s) (imageAddr base (n + i)) = w := by
  induction ts generalizing n i s with
  | nil => simp [parsedWords] at hw
  | cons t ts ih =>
    cases ht : parseToken t with
    | none => simp [parsedWords_cons_malformed ht] at hw
    | some v =>
      rw [parsedWords_cons_of_word ht] at hlen hw
      rw [List.length_cons] at hlen
      rw [loadTokens_cons_of_word ht]
      cases i with
      | zero =>
        obtain rfl : v = w := Option.some.inj hw
        have hlater : ∀ j < (parsedWords ts).length, key (imageAddr base n) ≠ key (imageAddr base (n + 1 + j)) :=
          fun j hj => key_imageAddr_ne base (by omega) (by omega)
        show memRead _ (imageAddr base n) = v
        rw [memRead_loadTokens_of_key_ne _ hlater, memRead_memWriteWord, if_pos rfl]
      | succ i =>
        rw [← Nat.add_assoc, Nat.add_right_comm]
        exact ih _ (by omega) hw

/-- The tokens that a load of an image goes through: none if it is absent (30_encoding.md R67). -/
def imageTokens : Option (List Char) → List (List Char)
  | none => []
  | some text => tokens text

@[simp] theorem imageTokens_some (text : List Char) : imageTokens (some text) = tokens text := rfl

/-- A load that is not refused is the loop over the image's tokens. -/
theorem memLoadImage_eq_next {source : Option (List Char)} {base : Word} {s t : State}
    (h : memLoadImage source base s = .next t) : t = loadTokens base 0 (imageTokens source) s := by
  cases source with
  | none => exact (Host.Outcome.next.inj h).symm
  | some text => exact (Host.Outcome.next.inj (accessing_eq_next h).2).symm

theorem memLoadImage_of_loadable {source : Option (List Char)} {base : Word} {s : State}
    (h : source = none ∨ s.cfg.addrMode = .mask ∨ aligned base = true) :
    memLoadImage source base s = .next (loadTokens base 0 (imageTokens source) s) := by
  cases source with
  | none => rfl
  | some text => exact accessing_of_readable _ (refusesAddr_false (h.resolve_left nofun))

/-- Settles O6: what a read and the domain are after the loop over the image's tokens. -/
theorem imageLoadWritesItsWords : Obligations.ImageLoadWritesItsWords := by
  intro text base s hbase hlen
  refine ⟨_, memLoadImage_of_loadable (.inr hbase), fun i w hw => ?_, fun a ha => ?_, fun k => ?_⟩
  · simpa using memRead_loadTokens_word (base := base) (n := 0) s hlen hw
  · exact memRead_loadTokens_of_key_ne s (by simpa using ha)
  · simpa using mem_mapped_loadTokens base (tokens text) 0 s k

/-! ### Boot -/

/-- Settles O5: boot is construction, whose map is empty, and the load of its image. -/
theorem bootValues : Obligations.BootValues := by
  intro p d hbase
  obtain ⟨hdefault, hendian, hlog, hsink, hfin⟩ :=
    loadTokens_attributes p.imageBase (imageTokens p.image) 0 (State.construct p d)
  refine ⟨_, memLoadImage_of_loadable hbase, loadTokens_rsp _ _ _ _, by rw [loadTokens_clk]; rfl,
    loadTokens_run _ _ _ _, loadTokens_cfg _ _ _ _, hdefault, hendian, hlog, hsink, hfin, fun habsent => ?_,
    fun text hpresent => ⟨fun k => ?_, fun hlen i w hw => ?_⟩, fun a ha => (memRead_unmapped ha).trans hdefault⟩
  · rw [habsent]
    rfl
  · have hdomain := mem_mapped_loadTokens p.imageBase (tokens text) 0 (State.construct p d) k
    have hempty : (State.construct p d).mm.mapped = [] := rfl
    simpa [hpresent, hempty] using hdomain
  · simpa [hpresent] using memRead_loadTokens_word (base := p.imageBase) (n := 0) (State.construct p d) hlen hw

/-- A load keeps the invariant: it writes memory in its form, and events. -/
theorem loadTokens_inv {s : State} (hi : Inv s) (base : Word) (ts : List (List Char)) (n : Nat) :
    Inv (loadTokens base n ts s) := by
  obtain ⟨hmemory, ⟨hdv, hle, hls⟩, hcounters, hclocks, hack, ⟨hsink, hfin⟩⟩ := hi
  obtain ⟨hdefault, hendian, hlog, hsink', hfin'⟩ := loadTokens_attributes base ts n s
  exact
    { memory := loadTokens_memoryInv base ts n s hmemory
      attributes :=
        { default_value := by rw [hdefault, loadTokens_cfg, hdv]
          little_endian := by rw [hendian, loadTokens_cfg, hle]
          log_stores := by rw [hlog, loadTokens_cfg, hls] }
      counters := hcounters.congr (loadTokens_clk _ _ _ _) (loadTokens_run _ _ _ _) (loadTokens_cfg _ _ _ _)
      clocks := by simpa [ClockInv] using hclocks
      acknowledge := by simpa [AckInv] using hack
      closing := ⟨by rw [hsink', hfin', hsink], by simpa [terminated, hfin'] using hfin⟩ }

/-- Settles O45: construction satisfies the invariant, and the image load keeps it. -/
theorem invariantAfterBoot : Obligations.InvariantAfterBoot := by
  intro p d s h
  rw [memLoadImage_eq_next h]
  exact loadTokens_inv (construct_inv p d) _ _ _

/-! ### A held request -/

/-- The responder after the accept of a request (42_bus_responder.md R118, R119). -/
def acceptedResponder (o : Lines) (r : Responder) : Responder :=
  if o.we then
    { r with capAdr := o.adr, capDat := o.wdata, capSel := o.sel, st := .writePending, ack := false }
  else { r with capAdr := o.adr, st := .readPending, ack := false }

theorem acceptedResponder_of_read {o : Lines} (hwe : o.we = false) (r : Responder) :
    acceptedResponder o r = { r with capAdr := o.adr, st := .readPending, ack := false } :=
  if_neg (Bool.eq_false_iff.1 hwe)

theorem acceptedResponder_of_write {o : Lines} (hwe : o.we = true) (r : Responder) :
    acceptedResponder o r =
      { r with capAdr := o.adr, capDat := o.wdata, capSel := o.sel, st := .writePending, ack := false } :=
  if_pos hwe

theorem acceptedResponder_capAdr (o : Lines) (r : Responder) : (acceptedResponder o r).capAdr = o.adr := by
  unfold acceptedResponder
  split <;> rfl

theorem acceptedResponder_st (o : Lines) (r : Responder) : (acceptedResponder o r).st ≠ .idle := by
  unfold acceptedResponder
  split <;> exact nofun

/-- In `Idle`, queued lines that are a request are accepted. -/
theorem boundaryLeaves_of_queuedRequest {s : State} {o : Lines} {rest : List Lines}
    (hscript : s.env.script = o :: rest) (hst : s.rsp.st = .idle) (hreq : isRequest o = true) :
    BoundaryLeaves s (acceptedResponder o s.rsp) s.mm := by
  have henv := sampled_of_script hscript
  refine ⟨_, rspStep_of_request (by simpa using hst) (by rwa [henv]), ?_⟩
  rw [henv, acceptedResponder]
  cases o.we <;> simp [acceptRead, acceptWrite, henv]

/-- A pending transaction retires whatever the device's lines are. -/
theorem boundaryLeaves_of_pending {s : State} (hst : s.rsp.st ≠ .idle) (hmask : s.cfg.addrMode = .mask) :
    BoundaryLeaves s (retiredResponder s) (if s.rsp.st = .writePending then storedMap s else s.mm) := by
  obtain ⟨u, hu⟩ := rspStep_of_retirable (retirable_evaluated (retirable_of_mask hmask))
  have hrsp := rspStep_rsp_of_pending (by simpa using hst) hu
  have hstored : storedMap (evaluateDevice (clkAdvance s)) = storedMap s := by
    simp only [storedMap, evaluateDevice_rsp, clkAdvance_rsp]
    exact memWriteMasked_mm_congr (by simp) _ _ _
  exact ⟨u, hu, by simpa [retiredResponder] using hrsp, by simpa [hstored] using rspStep_mm hu⟩

/-- The request on the lines `o` has just been acknowledged: its word is on read data, or its lanes are in
memory. -/
structure Served (o : Lines) (t : State) : Prop where
  ack : t.rsp.ack = true
  st : t.rsp.st = .idle
  capAdr : t.rsp.capAdr = o.adr
  rdata : o.we = false → t.rsp.rdata = memRead t o.adr
  lanes : o.we = true → ∀ i < 4, selectsByte o.sel i = true → wordByte (memRead t o.adr) i = wordByte o.wdata i

/-- The retire of an accepted request serves it. -/
theorem served_of_retired {s t : State} {o : Lines} {r : Responder} (hs : s.rsp = acceptedResponder o r)
    (hrsp : t.rsp = retiredResponder s) (hmm : t.mm = if s.rsp.st = .writePending then storedMap s else s.mm) :
    Served o t := by
  have hcap : s.rsp.capAdr = o.adr := by rw [hs, acceptedResponder_capAdr]
  exact
    { ack := by rw [hrsp]; rfl
      st := by rw [hrsp]; rfl
      capAdr := by rw [hrsp, ← hcap]; rfl
      rdata := fun hwe => by
        rw [acceptedResponder_of_read hwe] at hs
        rw [hs] at hmm
        rw [hrsp, retiredResponder, hs, memRead_of_mm hmm]
        rfl
      lanes := fun hwe i hi hlane => by
        rw [acceptedResponder_of_write hwe] at hs
        simp only [hs, if_true, storedMap] at hmm
        rw [memRead_of_mm hmm, memRead_memWriteMasked, if_pos rfl, wordByte_mergeLanes _ _ _ i hi, if_pos hlane] }

/-- From `Idle` a request is accepted at the first boundary and served at the second. -/
theorem stepN_serves {n : Nat} {s : State} (hs : QuietBoundary (n + 1) s) (hmask : s.cfg.addrMode = .mask)
    (hst : s.rsp.st = .idle) {o : Lines} {rest : List Lines} (hscript : s.env.script = o :: rest)
    (hreq : isRequest o = true) : ∃ t, stepN 5 s = .next t ∧ Served o t := by
  obtain ⟨u, hu4, hu⟩ :=
    stepN_intoBusCycle hs (boundaryLeaves_of_queuedRequest hscript hst hreq) (k := 4) (by decide) le_rfl
  have hus := hu.quietBoundary hs
  obtain ⟨v, hv, hrsp, hmm⟩ := boundaryLeaves_of_pending (s := u) (by rw [hu.rsp]; exact acceptedResponder_st _ _)
    (by rw [hu.cfg, hmask])
  have hstep := step_boundary hus.going hus.boundary hv
  exact ⟨testTermination (traceTick (afterResponder v)), by rw [stepN_succ, hu4, andThen_of_next, hstep],
    served_of_retired hu.rsp hrsp hmm⟩

/-- Records of the same request differ in the `done` line only. -/
theorem eq_of_sameRequest {r o : Lines} (h : sameRequest r o = true) : o = { r with done := o.done } := by
  obtain ⟨cyc, stb, we, sel, adr, wdata, done⟩ := o
  simp only [sameRequest, Bool.and_eq_true, beq_iff_eq] at h
  obtain ⟨⟨⟨⟨⟨hcyc, hstb⟩, hwe⟩, hsel⟩, hadr⟩, hwdata⟩ := h
  simp only [hcyc, hstb, hwe, hsel, hadr, hwdata]

/-- Settles O50: from `Idle` the request of the first boundary is served; from a pending state the first
boundary retires what is pending, and the held request of the second is served. -/
theorem heldRequestIsServed : Obligations.HeldRequestIsServed := by
  intro s r a1 a2 a3 b b1 b2 b3 c rest hgoing hmask hb hscript hdone hreq hheld _ hlen
  have hs : QuietBoundary 2 s :=
    { going := hgoing, boundary := hb, length := hlen
      lines := fun k hk => by
        have hk9 : k < [r, a1, a2, a3, b, b1, b2, b3, c].length := Nat.lt_succ_of_lt hk
        rw [hscript, List.getElem?_append_left hk9]
        exact ⟨_, List.getElem?_eq_getElem hk9, hdone _ (List.getElem_mem hk9)⟩ }
  by_cases hst : s.rsp.st = .idle
  · rw [if_pos hst]
    obtain ⟨t, hrun, ht⟩ := stepN_serves hs hmask hst hscript hreq
    exact ⟨t, hrun, ht.ack, ht.st, ht.capAdr, ht.rdata, ht.lanes⟩
  · rw [if_neg hst]
    obtain ⟨u, hu4, hu⟩ := stepN_intoBusCycle hs (boundaryLeaves_of_pending hst hmask) (k := 4) (by decide) le_rfl
    have hscript' : u.env.script = b :: ([b1, b2, b3, c] ++ rest) := by
      rw [hu.script, hscript]
      rfl
    rw [eq_of_sameRequest hheld] at hscript'
    obtain ⟨t, hrun, ht⟩ :=
      stepN_serves (hu.quietBoundary hs) (by rw [hu.cfg, hmask]) (by rw [hu.rsp]; rfl) hscript' hreq
    exact ⟨t, stepN_add_of_next hu4 hrun, ht.ack, ht.st, ht.capAdr, ht.rdata, ht.lanes⟩

end Sys2Proof.Machine
